-- ==== Sys2Proof/Word.lean ====
section
/-! DEFINITION. The word types of BPFE: every register, codepoint and memory address is 32 bits wide (R8, R62),
a memory cell is one byte (R62), and bit 0 is the least significant bit (R10). -/

namespace Sys2Proof

/-- A 32-bit value: a register, a codepoint, a command word or a memory address (R8 `REG_W`, `CP_W`, `ADDR_W`). -/
abbrev Word := BitVec 32

/-- One byte of the external memory (R62). -/
abbrev Byte := BitVec 8

end Sys2Proof
end

