-- ==== Sys2Proof/Config.lean ====
section
/-! DEFINITION. What is fixed for the machine: the production parameters of the three leaves (R6, R15), the open
parameters `HAS_VEC` and `REG_BASE` (R8, 92_eei_decisions.md section 2), and the free values the spec leaves open
(93_implementation_defined.md U3, U7). A free value or an open parameter is a constant with no body, so no proof can
see what it is. -/

namespace Sys2Proof.Config

/-- `W` of all three leaves (R6). -/
abbrev leafWidth : Nat := 32

/-- The shift of leaf L0 (R6, R15). -/
abbrev shift0 : Nat := 4

/-- The shift of leaf L1 (R6, R15). -/
abbrev shift1 : Nat := 0

/-- The shift of leaf L2 (R6, R15). -/
abbrev shift2 : Nat := 9

/-- `HAS_VEC`: whether the lane datapath is built. OPEN PARAMETER (R8, U10): fixed for the machine, not stated. -/
opaque hasVec : Bool

/-- `REG_BASE`: where the register block sits in the host's address map. OPEN PARAMETER (R69, U11); no rule reads it. -/
opaque regBase : Nat

/-- FREE VALUE (R35, U3): the word a read of `MASK0..2` returns while the masks hold no value, by the number of the
draw. Drawn afresh at each read. -/
opaque uninitMask : Nat → Word

/-- FREE VALUE (R66, R75, U7): the byte a memory read returns where another agent is changing the byte during the
command, by the number of the draw. Drawn afresh at each read. -/
opaque contestedByte : Nat → Byte

end Sys2Proof.Config
end

