-- ==== Sys2Proof/Syntax.lean ====
section
/-! DEFINITION. The commands (one constructor per row of spec/opcode_table.json), the host's register transactions and
the platform's acts on the external memory (the model's inputs), and the notation of R99 and R100. -/

namespace Sys2Proof

/-- The commands of R93. A command word carries no operand but the array commands' byte order (R91, R94): `be` is the
field `BE`, `false` little-endian, `true` big-endian. Every term is well formed: both values of `be` are legal (R93). -/
inductive Instr where
  /-- `INIT` (R170). -/
  | init
  /-- `ADD` (R171). -/
  | add
  /-- `ADD_RANGE` (R172). -/
  | addRange
  /-- `ADD_ARRAY.B`: elements of one byte (R190, `ESZ = 0`). -/
  | addArrayB (be : Bool)
  /-- `ADD_ARRAY.H`: elements of two bytes (R190, `ESZ = 1`). -/
  | addArrayH (be : Bool)
  /-- `ADD_ARRAY.W`: elements of four bytes (R190, `ESZ = 2`). -/
  | addArrayW (be : Bool)
  /-- `ADD_SORTED_ARRAY.B` (R193, `ESZ = 0`). -/
  | addSortedArrayB (be : Bool)
  /-- `ADD_SORTED_ARRAY.H` (R193, `ESZ = 1`). -/
  | addSortedArrayH (be : Bool)
  /-- `ADD_SORTED_ARRAY.W` (R193, `ESZ = 2`). -/
  | addSortedArrayW (be : Bool)
  /-- `QUERY` (R210). -/
  | query
  /-- `VQUERY` (R211). -/
  | vquery
  deriving DecidableEq, Repr

/-- The reasons a word is reserved (R96), each rejected by name. -/
inductive DecodeError where
  /-- `w[31:7]` is not 0: R96 (a). -/
  | reservedBits
  /-- `OPC` is 0 or 8 to 15: R96 (b). -/
  | reservedOpc
  /-- `ESZ = 3` in an array command: R96 (c). -/
  | reservedEsz
  /-- `ESZ` or `BE` not 0 in a command that is no array command: R96 (c). -/
  | fieldNotZero
  deriving DecidableEq, Repr

/-- What an agent outside the engine does to the external memory between two register transactions. The engine itself
never writes memory (R62, R66). -/
inductive PlatformAct where
  /-- A byte is stored at an address, which is then ordinary readable memory (R298). -/
  | store (a : Word) (b : Byte)
  /-- The address is freed: a read of it is no longer answered, whoever was changing the byte (R68, R298). -/
  | withdraw (a : Word)
  /-- Another agent begins to change the byte while commands run (R66, R75); a read of it is answered only where the
  platform holds a byte there (R68). -/
  | contest (a : Word)
  /-- That agent leaves the byte alone again. -/
  | release (a : Word)
  deriving DecidableEq, Repr

/-- One input of the machine: a register transaction the host presents (R231, R233), a reset (R290), or an act of the
platform. `idx` is `reg_addr`, the 5-bit word index (R61). -/
inductive HostEvent where
  /-- A read transaction. -/
  | rd (idx : BitVec 5)
  /-- A write transaction. -/
  | wr (idx : BitVec 5) (data : Word)
  /-- `rst` is asserted and released. -/
  | rst
  /-- The platform acts on the external memory. -/
  | platform (act : PlatformAct)
  deriving DecidableEq, Repr

/-- The registers of the register map (R27). -/
inductive Reg where
  | config
  | ctrl
  | status
  | err
  | cmd
  | result
  | vresult
  | opa
  | opb
  | addr
  | count
  | stride
  | vlane (i : Fin 8)
  | mask (i : Fin 3)
  deriving DecidableEq, Repr

/-- The element size suffix of a pseudo-instruction (R100): `.b`, `.h` or `.w`. -/
inductive ElemSize where
  | b
  | h
  | w
  deriving DecidableEq, Repr

/-- The pseudo-instructions of R100. -/
inductive Pseudo where
  | init
  | add (c : Word)
  | addRange (a b : Word)
  | addArray (sz : ElemSize) (be : Bool) (addr count stride : Word)
  | addSortedArray (sz : ElemSize) (be : Bool) (addr count stride : Word)
  | mayHave (c : Word)
  | vmayHave (cs : Vector Word 8)
  | clrErr
  deriving DecidableEq, Repr

end Sys2Proof
end

