-- ==== Sys2Proof/WellFormed.lean ====
section
/-! DEFINITION. Well-formedness: the legal parameter pairs of a leaf (R7, R120), carried by the type `Leaf` so that an
illegal leaf cannot be built (R269), and the legality of a command word as R96 states it, written without the
decoder. -/

namespace Sys2Proof

/-- `num_bits(W)` (R120). -/
def numBits (w : Nat) : Nat :=
  3 + (if 16 ≤ w then 1 else 0) + (if 32 ≤ w then 1 else 0) + (if 64 ≤ w then 1 else 0) + (if 128 ≤ w then 1 else 0)

/-- A legal pair `(W, S)` of leaf parameters (R6, R7). -/
abbrev LeafLegal (w s : Nat) : Prop :=
  (w = 16 ∨ w = 32 ∨ w = 64 ∨ w = 128) ∧ s + numBits w ≤ 32

/-- The parameters of a leaf filter, with the bound of R7: a configuration that breaks it does not exist (R269, U4). -/
structure Leaf where
  width : Nat
  shift : Nat
  legal : LeafLegal width shift
  deriving DecidableEq, Repr

/-- Construction of a leaf from raw parameters: an illegal pair is rejected (R7). -/
def Leaf.make (w s : Nat) : Option Leaf :=
  if h : LeafLegal w s then some ⟨w, s, h⟩ else none

/-- Leaf L0, `(32, 4)` (R15). -/
abbrev Leaf.l0 : Leaf := ⟨Config.leafWidth, Config.shift0, by decide⟩

/-- Leaf L1, `(32, 0)` (R15). -/
abbrev Leaf.l1 : Leaf := ⟨Config.leafWidth, Config.shift1, by decide⟩

/-- Leaf L2, `(32, 9)` (R15). -/
abbrev Leaf.l2 : Leaf := ⟨Config.leafWidth, Config.shift2, by decide⟩

/-- R96 (a): `w[31:7] = 0`. -/
abbrev ZeroFieldClear (w : Word) : Prop := w.toNat / 128 = 0

/-- R96 (b): `w[3:0]` is in 1..7. -/
abbrev OpcDefined (w : Word) : Prop := 1 ≤ w.toNat % 16 ∧ w.toNat % 16 ≤ 7

/-- R96 (c): an array command has `w[5:4] ≠ 3`; any other has `w[6:4] = 0`. -/
abbrev FieldsAllowed (w : Word) : Prop :=
  if w.toNat % 16 = 4 ∨ w.toNat % 16 = 5 then w.toNat / 16 % 4 ≠ 3 else w.toNat / 16 % 8 = 0

/-- A command word is legal exactly when (a), (b) and (c) of R96 hold. -/
abbrev LegalWord (w : Word) : Prop := ZeroFieldClear w ∧ OpcDefined w ∧ FieldsAllowed w

end Sys2Proof
end

