-- ==== Sys2Proof/Machine/Leaf.lean ====
section
/-! DEFINITION. The leaf functions of 40_leaf_filter.md, generic in the mask width `w` and the shift `s`: pure functions
of a mask. BPFE uses them at `(32, 4)`, `(32, 0)` and `(32, 9)`. -/

namespace Sys2Proof.Machine

/-- `num_buckets(W) = 2^num_bits(W)` (R120). -/
def numBuckets (w : Nat) : Nat := 2 ^ numBits w

/-- `q(c) = c >> S`, a logical shift (R121). -/
def quotient (s : Nat) (c : Word) : Word := c >>> s

/-- `bucket(c) = q(c) & (N - 1)` (R121). -/
def bucket (w s : Nat) (c : Word) : Word := quotient s c &&& BitVec.ofNat 32 (numBuckets w - 1)

/-- `mask_for(c) = 1 << bucket(c)`, `w` bits wide (R122). -/
def maskFor (w s : Nat) (c : Word) : BitVec w := 1#w <<< (bucket w s c).toNat

/-- `leaf_init(m) = 0` (R123); the old mask is not read. -/
def leafInit (w : Nat) : BitVec w := 0#w

/-- `leaf_add(m, c)` (R124). -/
def leafAdd (w s : Nat) (m : BitVec w) (c : Word) : BitVec w := m ||| maskFor w s c

/-- `borrow = lt(mb, ma)`, as a `w`-bit value (R125, C4). -/
def borrowOf (w : Nat) (ma mb : BitVec w) : BitVec w := if mb < ma then 1#w else 0#w

/-- `run = (mb + (mb - ma)) - borrow`, modulo `2^W` (R125). -/
def runOf (w : Nat) (ma mb : BitVec w) : BitVec w := (mb + (mb - ma)) - borrowOf w ma mb

/-- `leaf_add_range(m, a, b)`, for `a ≤ b` (R125): the saturation test is on the unmasked quotients (C1). -/
def leafAddRange (w s : Nat) (m : BitVec w) (a b : Word) : BitVec w :=
  if BitVec.ofNat 32 (numBuckets w - 1) ≤ quotient s b - quotient s a then BitVec.allOnes w
  else m ||| runOf w (maskFor w s a) (maskFor w s b)

/-- `leaf_add_array(m, cs)`: `leaf_add` of each element in turn (R127). -/
def leafAddArray (w s : Nat) (m : BitVec w) (cs : List Word) : BitVec w := cs.foldl (leafAdd w s) m

/-- `leaf_add_sorted_array` is the same function (R128). -/
def leafAddSortedArray (w s : Nat) (m : BitVec w) (cs : List Word) : BitVec w := leafAddArray w s m cs

/-- `leaf_may_have(m, c) = (m >> bucket(c)) & 1` (R129). -/
def leafMayHave (w s : Nat) (m : BitVec w) (c : Word) : Bool := (m >>> (bucket w s c).toNat).getLsbD 0

/-- The OR of eight lane bits: `any` (R130). -/
def anyLane (hit : Vector Bool 8) : Bool := hit.toList.any id

/-- A function of each lane: the loop over `i` in `0..7` of R130. -/
def mapLanes {α β : Type} (f : α → β) (v : Vector α 8) : Vector β 8 :=
  #v[f v[0], f v[1], f v[2], f v[3], f v[4], f v[5], f v[6], f v[7]]

/-- The AND of two lane vectors, lane by lane (R155, R212). -/
def andLanes (v w : Vector Bool 8) : Vector Bool 8 :=
  #v[v[0] && w[0], v[1] && w[1], v[2] && w[2], v[3] && w[3], v[4] && w[4], v[5] && w[5], v[6] && w[6], v[7] && w[7]]

/-- `leaf_vmay_have(m, cs)` by its per-lane definition: `hit`, and `any` as `anyLane hit` (R130, first block). -/
def leafVmayHave (w s : Nat) (m : BitVec w) (cs : Vector Word 8) : Vector Bool 8 := mapLanes (leafMayHave w s m) cs

/-- One lane of the lane datapath, for `W = 32` (R130, second block): index, single bit, AND with the broadcast mask,
compare with zero. -/
def laneHit (s : Nat) (m c : Word) : Bool :=
  let idx : Word := (c >>> s) &&& 31
  let bit : Word := (1 : Word) <<< idx.toNat
  let t : Word := bit &&& m
  t != 0

/-- `hit` of the lane datapath (R130, R212). -/
def laneHits (s : Nat) (m : Word) (cs : Vector Word 8) : Vector Bool 8 := mapLanes (laneHit s m) cs

/-- The AND of every lane's single bit with the broadcast mask, as the 256-bit value `VEC[32*i+31 : 32*i]` (R25,
R130). -/
def laneVector (s : Nat) (m : Word) (cs : Vector Word 8) : BitVec 256 :=
  let t := fun c : Word => ((1 : Word) <<< ((c >>> s) &&& (31 : Word)).toNat) &&& m
  t cs[7] ++ t cs[6] ++ t cs[5] ++ t cs[4] ++ t cs[3] ++ t cs[2] ++ t cs[1] ++ t cs[0]

end Sys2Proof.Machine
end

