-- ==== Sys2Proof/Decode.lean ====
section
/-! DEFINITION. The decoder (total on every 32-bit word, R96, R97) and, after it, the encoder, both from the fields of
R91 and the opcode map of R93; and `opcodeRows`, the opcode table of spec/opcode_table.json as data. -/

namespace Sys2Proof

/-- `OPC = w[3:0]` (R91). -/
def opcField (w : Word) : BitVec 4 := w.extractLsb' 0 4

/-- `ESZ = w[5:4]` (R91). -/
def eszField (w : Word) : BitVec 2 := w.extractLsb' 4 2

/-- `BE = w[6]` (R91). -/
def beField (w : Word) : Bool := w.getLsbD 6

/-- `ZERO = w[31:7]` (R91). -/
def zeroField (w : Word) : BitVec 25 := w.extractLsb' 7 25

/-- A command of a format other than M: `ESZ` and `BE` are part of the must-be-zero space (R91, R92). -/
def plainForm (w : Word) (i : Instr) : Except DecodeError Instr :=
  if eszField w = 0 ∧ beField w = false then .ok i else .error .fieldNotZero

/-- A command of format M: the element size picks the row, and `ESZ = 3` is reserved (R91, R92). -/
def arrayForm (w : Word) (b h wd : Bool → Instr) : Except DecodeError Instr :=
  if eszField w = 0 then .ok (b (beField w))
  else if eszField w = 1 then .ok (h (beField w))
  else if eszField w = 2 then .ok (wd (beField w))
  else .error .reservedEsz

/-- The decoder: a command, or the reason the word is reserved (R93, R96). It depends on the word alone (R97). -/
def decode (w : Word) : Except DecodeError Instr :=
  if zeroField w ≠ 0 then .error .reservedBits
  else if opcField w = 1 then plainForm w .init
  else if opcField w = 2 then plainForm w .add
  else if opcField w = 3 then plainForm w .addRange
  else if opcField w = 4 then arrayForm w .addArrayB .addArrayH .addArrayW
  else if opcField w = 5 then arrayForm w .addSortedArrayB .addSortedArrayH .addSortedArrayW
  else if opcField w = 6 then plainForm w .query
  else if opcField w = 7 then plainForm w .vquery
  else .error .reservedOpc

/-- The word of an array command: `OPC + 16*ESZ + 64*BE` (R93). -/
def arrayWord (opc esz : Nat) (be : Bool) : Word :=
  BitVec.ofNat 32 (opc + 16 * esz + 64 * be.toNat)

/-- The encoder: the word of a command (R93). -/
def encode : Instr → Word
  | .init => 0x00000001
  | .add => 0x00000002
  | .addRange => 0x00000003
  | .addArrayB be => arrayWord 4 0 be
  | .addArrayH be => arrayWord 4 1 be
  | .addArrayW be => arrayWord 4 2 be
  | .addSortedArrayB be => arrayWord 5 0 be
  | .addSortedArrayH be => arrayWord 5 1 be
  | .addSortedArrayW be => arrayWord 5 2 be
  | .query => 0x00000006
  | .vquery => 0x00000007

/-- One row of spec/opcode_table.json: the bits `mask` selects equal `match`. -/
structure OpcodeRow where
  mnemonic : String
  matchBits : Word
  maskBits : Word
  deriving DecidableEq, Repr

/-- Whether a word is of a row. -/
def OpcodeRow.accepts (r : OpcodeRow) (w : Word) : Bool := w &&& r.maskBits == r.matchBits

/-- The rows of spec/opcode_table.json, in its order. -/
def opcodeRows : List OpcodeRow :=
  [ ⟨"INIT", 0x00000001, 0xFFFFFFFF⟩,
    ⟨"ADD", 0x00000002, 0xFFFFFFFF⟩,
    ⟨"ADD_RANGE", 0x00000003, 0xFFFFFFFF⟩,
    ⟨"ADD_ARRAY.B", 0x00000004, 0xFFFFFFBF⟩,
    ⟨"ADD_ARRAY.H", 0x00000014, 0xFFFFFFBF⟩,
    ⟨"ADD_ARRAY.W", 0x00000024, 0xFFFFFFBF⟩,
    ⟨"ADD_SORTED_ARRAY.B", 0x00000005, 0xFFFFFFBF⟩,
    ⟨"ADD_SORTED_ARRAY.H", 0x00000015, 0xFFFFFFBF⟩,
    ⟨"ADD_SORTED_ARRAY.W", 0x00000025, 0xFFFFFFBF⟩,
    ⟨"QUERY", 0x00000006, 0xFFFFFFFF⟩,
    ⟨"VQUERY", 0x00000007, 0xFFFFFFFF⟩ ]

/-- The table's mnemonic of a command. -/
def Instr.mnemonic : Instr → String
  | .init => "INIT"
  | .add => "ADD"
  | .addRange => "ADD_RANGE"
  | .addArrayB _ => "ADD_ARRAY.B"
  | .addArrayH _ => "ADD_ARRAY.H"
  | .addArrayW _ => "ADD_ARRAY.W"
  | .addSortedArrayB _ => "ADD_SORTED_ARRAY.B"
  | .addSortedArrayH _ => "ADD_SORTED_ARRAY.H"
  | .addSortedArrayW _ => "ADD_SORTED_ARRAY.W"
  | .query => "QUERY"
  | .vquery => "VQUERY"

/-- The command the decoder reads from a word of `nbits` bits numbered as spec/opcode_table.json numbers them: a
command is one 32-bit word delivered whole on the register port (R90), so there is no byte order to lay out. -/
def decodeTableWord (nbits w : Nat) : Option Instr :=
  if nbits ≤ 32 ∧ w < 2 ^ nbits then (decode (BitVec.ofNat 32 w)).toOption else none

end Sys2Proof
end

