-- ==== Sys2Proof/Machine/State.lean ====
section
/-! DEFINITION. The state: all the architectural state R20 lists, the external memory, the inputs still to come, and
the model's own records (INVENTORY.md '## State'). -/

namespace Sys2Proof.Machine

/-- The three masks `M[0]`, `M[1]`, `M[2]` of the leaves L0, L1, L2 (R21). -/
structure Masks where
  m0 : Word
  m1 : Word
  m2 : Word
  deriving DecidableEq, Repr

/-- The external memory: the bytes the platform answers, as cells in one canonical form (`Memory.wf`). -/
abbrev Memory := List Host.Cell

/-- The answer of a completed register transaction: `reg_rdata` and `reg_err` (R230, R231, R233, R236). -/
inductive PortAnswer where
  /-- A read completed with `reg_err = 0` and this `reg_rdata`. -/
  | readOk (data : Word)
  /-- A write completed with `reg_err = 0`. -/
  | writeOk
  /-- A read answered `reg_err = 1`, `reg_rdata = 0` (R236). -/
  | readError
  /-- A write answered `reg_err = 1` (R236). -/
  | writeError
  deriving DecidableEq, Repr

/-- The state of BPFE (R20) and of its surroundings. -/
structure State where
  /-- `M[0..2]` and `INITED`: `none` while the masks hold no value, that is while `INITED = 0` (R22, R40, R133). This
  `none` is the spec's own condition, not a missing reset value. -/
  filter : Option Masks
  opa : Word
  opb : Word
  addr : Word
  count : Word
  stride : Word
  /-- `V[0]` .. `V[7]` (R25). -/
  lanes : Vector Word 8
  /-- `CTRL.VEC_EN` (R29). -/
  vecEn : Bool
  /-- `ERR[2:0]`: bit 0 `RANGE`, bit 1 `UNINIT`, bit 2 `BADCMD` (R31). -/
  err : BitVec 3
  result : Word
  vresult : Word
  /-- The external memory (R62, R66). -/
  mem : Memory
  /-- Addresses whose bytes, where the memory lists them, another agent may be changing (R66, R75): the model's own. -/
  contested : List Nat
  /-- The inputs still to come, the next one first (R70): the model's own. -/
  port : List HostEvent
  /-- The answer of the last completed register transaction (R230): the model's own. -/
  answer : Option PortAnswer
  /-- The memory read port's requests and the bytes answered, oldest first (R72, R239): the model's own. -/
  reads : List (Word × Byte)
  /-- How many free values have been drawn: the model's own. -/
  draws : Nat
  deriving DecidableEq, Repr

/-- Why the machine stops. -/
inductive Fault where
  /-- Raised by the array commands: the platform never answers the read of this byte, which `mem` does not list, so the
  command never completes and the port accepts nothing more (R68, U7: "stuck"). Safe: the model has no step there, as the
  spec says. -/
  | readUnanswered (a : Word)
  deriving DecidableEq, Repr

/-- Why an instruction has no meaning. -/
inductive Refusal where
  /-- Raised by no arm of `exec`: every command of the table has its meaning. Safe: the model stops. -/
  | notModelled (mnemonic : String)
  deriving DecidableEq, Repr

/-- The machine right after reset (R40): no mask value, `INITED = 0`, `VEC_EN = HAS_VEC`, every other register 0. The
surroundings are empty: no memory byte is admitted and the host presents nothing (log entries 5 and 6). -/
def State.reset : State where
  filter := none
  opa := 0
  opb := 0
  addr := 0
  count := 0
  stride := 0
  lanes := Vector.replicate 8 0
  vecEn := Config.hasVec
  err := 0
  result := 0
  vresult := 0
  mem := []
  contested := []
  port := []
  answer := none
  reads := []
  draws := 0

end Sys2Proof.Machine
end

