-- ==== Sys2Proof/Machine/Filter.lean ====
section
/-! DEFINITION. The filter combiner of 41_combiner.md over any tree of leaves (R150 to R153), and the three-way
composite BPFE holds, as functions of its three masks (R154, R155). -/

namespace Sys2Proof.Machine

/-- A filter: a leaf with its mask, or a combiner of two filters, each owned by value (R150). -/
inductive Filter where
  | leaf (l : Leaf) (mask : BitVec l.width)
  | comb (head tail : Filter)
  deriving DecidableEq, Repr

/-- `comb_init`: reaches every leaf (R123, R151). -/
def Filter.cleared : Filter → Filter
  | .leaf l _ => .leaf l (leafInit l.width)
  | .comb h t => .comb h.cleared t.cleared

/-- `comb_add`: forwards to both children (R152). -/
def Filter.add (c : Word) : Filter → Filter
  | .leaf l m => .leaf l (leafAdd l.width l.shift m c)
  | .comb h t => .comb (h.add c) (t.add c)

/-- `comb_add_range`: forwards to both children (R152). -/
def Filter.addRange (a b : Word) : Filter → Filter
  | .leaf l m => .leaf l (leafAddRange l.width l.shift m a b)
  | .comb h t => .comb (h.addRange a b) (t.addRange a b)

/-- `comb_add_array`: forwards the whole list to both children (R152). -/
def Filter.addArray (cs : List Word) : Filter → Filter
  | .leaf l m => .leaf l (leafAddArray l.width l.shift m cs)
  | .comb h t => .comb (h.addArray cs) (t.addArray cs)

/-- `comb_add_sorted_array`: forwards the whole list to both children (R152). -/
def Filter.addSortedArray (cs : List Word) : Filter → Filter
  | .leaf l m => .leaf l (leafAddSortedArray l.width l.shift m cs)
  | .comb h t => .comb (h.addSortedArray cs) (t.addSortedArray cs)

/-- `comb_may_have`: the AND of the children's answers (R129, R153). -/
def Filter.mayHave (c : Word) : Filter → Bool
  | .leaf l m => leafMayHave l.width l.shift m c
  | .comb h t => h.mayHave c && t.mayHave c

/-- ROOT as a tree: `Comb(L0, Comb(L1, L2))` on the masks (R15, R154). -/
def Masks.root (m : Masks) : Filter :=
  .comb (.leaf .l0 m.m0) (.comb (.leaf .l1 m.m1) (.leaf .l2 m.m2))

/-- `M[i]`. -/
def Masks.get (m : Masks) (i : Fin 3) : Word :=
  match i with
  | 0 => m.m0
  | 1 => m.m1
  | 2 => m.m2

/-- `root_init` (R154). -/
def Masks.cleared : Masks :=
  ⟨leafInit Config.leafWidth, leafInit Config.leafWidth, leafInit Config.leafWidth⟩

/-- `root_add(c)` (R154). -/
def Masks.add (m : Masks) (c : Word) : Masks :=
  ⟨leafAdd Config.leafWidth Config.shift0 m.m0 c, leafAdd Config.leafWidth Config.shift1 m.m1 c,
    leafAdd Config.leafWidth Config.shift2 m.m2 c⟩

/-- `root_add_range(a, b)` (R154). -/
def Masks.addRange (m : Masks) (a b : Word) : Masks :=
  ⟨leafAddRange Config.leafWidth Config.shift0 m.m0 a b, leafAddRange Config.leafWidth Config.shift1 m.m1 a b,
    leafAddRange Config.leafWidth Config.shift2 m.m2 a b⟩

/-- `L0`'s answer (R154). -/
def Masks.has0 (m : Masks) (c : Word) : Bool := leafMayHave Config.leafWidth Config.shift0 m.m0 c

/-- `L1`'s answer (R154). -/
def Masks.has1 (m : Masks) (c : Word) : Bool := leafMayHave Config.leafWidth Config.shift1 m.m1 c

/-- `L2`'s answer (R154). -/
def Masks.has2 (m : Masks) (c : Word) : Bool := leafMayHave Config.leafWidth Config.shift2 m.m2 c

/-- `TAIL`'s answer, `L1 & L2` (R153, R154). -/
def Masks.hasTail (m : Masks) (c : Word) : Bool := m.has1 c && m.has2 c

/-- `root_may_have(c)`: `L0 & TAIL` (R153, R154). -/
def Masks.mayHave (m : Masks) (c : Word) : Bool := m.has0 c && m.hasTail c

end Sys2Proof.Machine
end

