-- ==== Sys2Proof/Machine/Flags.lean ====
section
/-! DEFINITION. The words a command reports: `RESULT` (R33), `VRESULT` (R34), the completion codes and the `ERR` bits
(R31, R265). -/

namespace Sys2Proof.Machine

/-- The three refusals (R265). -/
inductive CmdError where
  | range
  | uninit
  | badcmd
  deriving DecidableEq, Repr

/-- `RESULT.CODE` of a refusal (R33, R265); 0 is `OK`. -/
def CmdError.code : CmdError → BitVec 4
  | .range => 1
  | .uninit => 2
  | .badcmd => 3

/-- The `ERR` bit of a refusal, as a mask (R31, R265). -/
def CmdError.errBit : CmdError → BitVec 3
  | .range => 0b001
  | .uninit => 0b010
  | .badcmd => 0b100

/-- `RESULT` from `OPC`, `CODE` and the hit bits `[4:0]`; reserved bits are 0 (R33). -/
def resultWord (opc code : BitVec 4) (hits : BitVec 5) : Word :=
  0#16 ++ opc ++ code ++ 0#3 ++ hits

/-- `RESULT` of a command that completes `OK` without an answer (R33). -/
def doneWord (opc : BitVec 4) : Word := resultWord opc 0 0

/-- The hit bits: `TAIL`, `L2`, `L1`, `L0`, `HIT` from bit 4 down to bit 0 (R33). -/
def hitBits (hit l0 l1 l2 tail : Bool) : BitVec 5 :=
  BitVec.ofBool tail ++ BitVec.ofBool l2 ++ BitVec.ofBool l1 ++ BitVec.ofBool l0 ++ BitVec.ofBool hit

/-- The hit bits of a QUERY of `c` (R210). -/
def queryHits (m : Masks) (c : Word) : BitVec 5 :=
  hitBits (m.mayHave c) (m.has0 c) (m.has1 c) (m.has2 c) (m.hasTail c)

/-- Eight lane bits as a byte, lane `i` at bit `i` (R34). -/
def packLanes (v : Vector Bool 8) : BitVec 8 :=
  BitVec.ofBool v[7] ++ BitVec.ofBool v[6] ++ BitVec.ofBool v[5] ++ BitVec.ofBool v[4] ++
    BitVec.ofBool v[3] ++ BitVec.ofBool v[2] ++ BitVec.ofBool v[1] ++ BitVec.ofBool v[0]

/-- `VRESULT` from the lanes' ROOT answers and leaf answers (R34). -/
def vresultWord (hit l0 l1 l2 : Vector Bool 8) : Word :=
  packLanes l2 ++ packLanes l1 ++ packLanes l0 ++ packLanes hit

/-- The hit bits of a refused word: the safe answer, all ones, for `OPC` 6 and 7, else 0 (R33, R267). -/
def refusedHits (opc : BitVec 4) : BitVec 5 :=
  if opc = 6 ∨ opc = 7 then BitVec.allOnes 5 else 0

end Sys2Proof.Machine
end

