-- ==== Sys2Proof/Machine/Ops.lean ====
section
/-! DEFINITION. The named operations: the external memory and its read port (R62, R63, R66, R68), the error report
`raise` (R267), the `INITED` check of the prologue (R98), and reset (R290). There is no trap entry beyond the report
and no return (R271, R272). -/

namespace Sys2Proof.Machine

/-- What an address no cell lists reads as: nothing, the platform never answers it (R68, log entry 5). -/
def Memory.unlisted : Option Byte := none

/-- The byte the memory holds at an address. -/
def Memory.lookup (a : Nat) : Memory → Option Byte
  | [] => Memory.unlisted
  | c :: m => if c.1 = a then some c.2 else Memory.lookup a m

/-- Store a byte, keeping the canonical form. -/
def Memory.store (a : Nat) (b : Byte) : Memory → Memory
  | [] => [(a, b)]
  | c :: m =>
    if a < c.1 then (a, b) :: c :: m
    else if a = c.1 then (a, b) :: m
    else c :: Memory.store a b m

/-- Withdraw an address: it is listed no more. -/
def Memory.withdraw (a : Nat) (m : Memory) : Memory := m.filter fun c => c.1 ≠ a

/-- The canonical form: addresses strictly rising, each in the memory space (R62). No cell can equal what an unlisted
address reads as, since that is no byte. -/
abbrev Memory.wf (m : Memory) : Prop :=
  m.Pairwise (fun c d => c.1 < d.1) ∧ ∀ c ∈ m, c.1 < 2 ^ 32

/-- Insert an address into a strictly rising list. -/
def addressInsert (a : Nat) : List Nat → List Nat
  | [] => [a]
  | x :: l => if a < x then a :: x :: l else if a = x then x :: l else x :: addressInsert a l

/-- The canonical form of a list of addresses: strictly rising, in the memory space. -/
abbrev AddressesWf (l : List Nat) : Prop := l.Pairwise (· < ·) ∧ ∀ a ∈ l, a < 2 ^ 32

/-- `INITED` (R22). -/
def State.inited (s : State) : Bool := s.filter.isSome

/-- One request on the memory read port and its answer (R63). A byte the memory does not list is never answered and
leaves no step, whoever is changing it (R68); of the bytes it lists, one that another agent is changing reads as a free
value (R66, R75), any other as the byte held. -/
def readByte (a : Word) (s : State) : Except Fault (Byte × State) :=
  match s.mem.lookup a.toNat with
  | none => .error (.readUnanswered a)
  | some b =>
    if a.toNat ∈ s.contested then
      .ok (Config.contestedByte s.draws,
        { s with draws := s.draws + 1, reads := s.reads ++ [(a, Config.contestedByte s.draws)] })
    else .ok (b, { s with reads := s.reads ++ [(a, b)] })

/-- `MemRead(addr, n)`: `n` byte reads at rising addresses modulo `2^32` (R13, R63). -/
def memRead : Nat → Word → State → Except Fault (List Byte × State)
  | 0, _, s => .ok ([], s)
  | n + 1, a, s =>
    match readByte a s with
    | .error f => .error f
    | .ok (b, s₁) =>
      match memRead n (a + 1) s₁ with
      | .error f => .error f
      | .ok (bs, s₂) => .ok (b :: bs, s₂)

/-- `raise E_X`: the error report, whole (R14, R267). -/
def report (e : CmdError) (opc : BitVec 4) (s : State) : State :=
  { s with
    err := s.err ||| e.errBit
    result := resultWord opc e.code (refusedHits opc)
    vresult := if opc = 7 then BitVec.allOnes 32 else s.vresult }

/-- The prologue's check that the masks hold a value: `E_UNINIT` while `INITED = 0` (R22, R98), else the command runs
on the masks. -/
def whenInited (opc : BitVec 4) (s : State) (run : Masks → Host.Outcome State Fault Refusal) :
    Host.Outcome State Fault Refusal :=
  match s.filter with
  | none => .next (report .uninit opc s)
  | some m => run m

/-- A command that completes `OK` with new masks: `RESULT` is its opcode alone (R33). -/
def State.mutated (s : State) (opc : BitVec 4) (m : Masks) : State :=
  { s with filter := some m, result := doneWord opc }

/-- The state after `rst` (R40, R290): the engine's state is reset; the external memory, the host's own inputs and the
model's records are not the engine's and stay. -/
def State.afterReset (s : State) : State :=
  { State.reset with
    mem := s.mem, contested := s.contested, port := s.port, reads := s.reads, draws := s.draws }

/-- What the platform does to the external memory between transactions (R66, R68, R75, R298). -/
def platformAct (act : PlatformAct) (s : State) : State :=
  match act with
  | .store a b => { s with mem := s.mem.store a.toNat b }
  | .withdraw a => { s with mem := s.mem.withdraw a.toNat }
  | .contest a => { s with contested := addressInsert a.toNat s.contested }
  | .release a => { s with contested := s.contested.filter fun x => x ≠ a.toNat }

end Sys2Proof.Machine
end

