-- ==== Sys2Proof/Machine/Operands.lean ====
section
/-! DEFINITION. Operand assembly (R94): the scalar and range operands are registers used as they are; the elements of
an array command are addressed, fetched, assembled and zero-extended here (R64, R191, R192). -/

namespace Sys2Proof.Machine

/-- `elem_addr(i) = ADDR + trunc_32(i * STRIDE)` (R192). -/
def elemAddr (s : State) (i : Nat) : Word := s.addr + BitVec.ofNat 32 (i * s.stride.toNat)

/-- `sum over k of b[k] * 2^(8*k)` (R64). -/
def littleEndian : List Byte → Nat
  | [] => 0
  | b :: bs => b.toNat + 256 * littleEndian bs

/-- The element its bytes make under `BE`, zero-extended to a codepoint (R64, R191). -/
def assemble (be : Bool) (bs : List Byte) : Word :=
  BitVec.ofNat 32 (littleEndian (if be then bs.reverse else bs))

/-- `fetch_elem(ea, n, BE)` (R191). -/
def fetchElem (n : Nat) (be : Bool) (ea : Word) (s : State) : Except Fault (Word × State) :=
  match memRead n ea s with
  | .error f => .error f
  | .ok (bs, s') => .ok (assemble be bs, s')

/-- The byte addresses an array command reads, in the order of R72: elements by rising index, bytes by rising
address. -/
def arrayAddresses (n : Nat) (s : State) : List Word :=
  (List.range s.count.toNat).flatMap fun i => (List.range n).map fun k => elemAddr s i + BitVec.ofNat 32 k

/-- The elements that a command's bytes, as read, make: `n` bytes each (R191). -/
def elementsOf (n : Nat) (be : Bool) (count : Nat) (bytes : List Byte) : List Word :=
  (List.range count).map fun i => assemble be ((bytes.drop (n * i)).take n)

end Sys2Proof.Machine
end

