-- ==== Sys2Proof/Machine/Array.lean ====
section
/-! DEFINITION. The meanings of ADD_ARRAY and ADD_SORTED_ARRAY (43_cmd_array.md), one per element size. -/

namespace Sys2Proof.Machine

/-- The element loop of R190 from element `i` on, `k` elements left: the reads of an element precede its update, which
precedes the reads of the next (R72). -/
def arrayLoop (n : Nat) (be : Bool) : Nat → Nat → Masks → State → Except Fault (Masks × State)
  | 0, _, m, s => .ok (m, s)
  | k + 1, i, m, s =>
    match fetchElem n be (elemAddr s i) s with
    | .error f => .error f
    | .ok (c, s') => arrayLoop n be k (i + 1) (m.add c) s'

/-- `do_ADD_ARRAY` and `do_ADD_SORTED_ARRAY` (R190, R193): `COUNT` elements of `n` bytes; only the opcode that `RESULT`
echoes differs. -/
def addElements (opc : BitVec 4) (n : Nat) (be : Bool) (s : State) : Host.Outcome State Fault Refusal :=
  whenInited opc s fun m =>
    match arrayLoop n be s.count.toNat 0 m s with
    | .error f => .fault f
    | .ok (m', s') => .next (s'.mutated opc m')

/-- `ADD_ARRAY.B` (R190, `ESZ = 0`). -/
def execAddArrayB (be : Bool) (s : State) : Host.Outcome State Fault Refusal := addElements 4 1 be s

/-- `ADD_ARRAY.H` (R190, `ESZ = 1`). -/
def execAddArrayH (be : Bool) (s : State) : Host.Outcome State Fault Refusal := addElements 4 2 be s

/-- `ADD_ARRAY.W` (R190, `ESZ = 2`). -/
def execAddArrayW (be : Bool) (s : State) : Host.Outcome State Fault Refusal := addElements 4 4 be s

/-- `ADD_SORTED_ARRAY.B` (R193, `ESZ = 0`). -/
def execAddSortedArrayB (be : Bool) (s : State) : Host.Outcome State Fault Refusal := addElements 5 1 be s

/-- `ADD_SORTED_ARRAY.H` (R193, `ESZ = 1`). -/
def execAddSortedArrayH (be : Bool) (s : State) : Host.Outcome State Fault Refusal := addElements 5 2 be s

/-- `ADD_SORTED_ARRAY.W` (R193, `ESZ = 2`). -/
def execAddSortedArrayW (be : Bool) (s : State) : Host.Outcome State Fault Refusal := addElements 5 4 be s

end Sys2Proof.Machine
end

