-- ==== Sys2Proof/Machine/InitAdd.lean ====
section
/-! DEFINITION. The meanings of INIT, ADD and ADD_RANGE (42_cmd_init_add.md). -/

namespace Sys2Proof.Machine

/-- `INIT` (R170): legal whether or not the masks hold a value; the old masks are not read. -/
def execInit (s : State) : Host.Outcome State Fault Refusal :=
  .next (s.mutated 1 Masks.cleared)

/-- `ADD` (R171). -/
def execAdd (s : State) : Host.Outcome State Fault Refusal :=
  whenInited 2 s fun m => .next (s.mutated 2 (m.add s.opa))

/-- `ADD_RANGE` (R172): `E_RANGE` when `OPA > OPB`, unsigned. -/
def execAddRange (s : State) : Host.Outcome State Fault Refusal :=
  whenInited 3 s fun m =>
    if s.opb < s.opa then .next (report .range 3 s) else .next (s.mutated 3 (m.addRange s.opa s.opb))

end Sys2Proof.Machine
end

