-- ==== Sys2Proof/Machine/Query.lean ====
section
/-! DEFINITION. The meanings of QUERY and VQUERY (44_cmd_query.md), and the lane datapath's results (R212). -/

namespace Sys2Proof.Machine

/-- `QUERY` (R210). -/
def execQuery (s : State) : Host.Outcome State Fault Refusal :=
  whenInited 6 s fun m => .next { s with result := resultWord 6 0 (queryHits m s.opa) }

/-- The hit bits of `RESULT` after a batch query: each is the OR over lanes (R155, R211). -/
def batchHits (hit l0 l1 l2 tail : Vector Bool 8) : BitVec 5 :=
  hitBits (anyLane hit) (anyLane l0) (anyLane l1) (anyLane l2) (anyLane tail)

/-- The composite's batch query of R155 and R211: `VRESULT` and the hit bits of `RESULT`. -/
def batchQuery (m : Masks) (cs : Vector Word 8) : Word × BitVec 5 :=
  let l0 := mapLanes m.has0 cs
  let l1 := mapLanes m.has1 cs
  let l2 := mapLanes m.has2 cs
  let tail := mapLanes m.hasTail cs
  let hit := mapLanes m.mayHave cs
  (vresultWord hit l0 l1 l2, batchHits hit l0 l1 l2 tail)

/-- The same computed with the 256-bit lane datapath (R130, R212): the steps of each leaf, then a per-lane AND, then the
OR-reductions. It gives what `batchQuery` gives, so `VQUERY` needs only that one. -/
def batchQueryLanes (m : Masks) (cs : Vector Word 8) : Word × BitVec 5 :=
  let l0 := laneHits Config.shift0 m.m0 cs
  let l1 := laneHits Config.shift1 m.m1 cs
  let l2 := laneHits Config.shift2 m.m2 cs
  let tail := andLanes l1 l2
  let hit := andLanes l0 tail
  (vresultWord hit l0 l1 l2, batchHits hit l0 l1 l2 tail)

/-- `VQUERY` (R211): the same meaning for every `HAS_VEC` and `VEC_EN` (R212). -/
def execVquery (s : State) : Host.Outcome State Fault Refusal :=
  whenInited 7 s fun m =>
    .next { s with
      vresult := (batchQuery m s.lanes).1
      result := resultWord 7 0 (batchQuery m s.lanes).2 }

end Sys2Proof.Machine
end

