-- ==== Sys2Proof/Machine/Dispatch.lean ====
section
/-! DEFINITION. What each command does: one arm per constructor of `Instr` (R98, the `case`). -/

namespace Sys2Proof.Machine

def exec (i : Instr) (s : State) : Host.Outcome State Fault Refusal :=
  match i with
  | .init => Sys2Proof.Machine.execInit s
  | .add => Sys2Proof.Machine.execAdd s
  | .addRange => Sys2Proof.Machine.execAddRange s
  | .addArrayB be => Sys2Proof.Machine.execAddArrayB be s
  | .addArrayH be => Sys2Proof.Machine.execAddArrayH be s
  | .addArrayW be => Sys2Proof.Machine.execAddArrayW be s
  | .addSortedArrayB be => Sys2Proof.Machine.execAddSortedArrayB be s
  | .addSortedArrayH be => Sys2Proof.Machine.execAddSortedArrayH be s
  | .addSortedArrayW be => Sys2Proof.Machine.execAddSortedArrayW be s
  | .query => Sys2Proof.Machine.execQuery s
  | .vquery => Sys2Proof.Machine.execVquery s

end Sys2Proof.Machine
end

