-- ==== Sys2Proof/Machine/HostPort.lean ====
section
/-! DEFINITION. The host register port (45_host_port.md): the register map, read and write transactions, the launch of a
command, bus errors; and the host's notation (R99, R100). -/

namespace Sys2Proof.Machine

/-- The byte offset of a register, `4 * reg_addr` (R61, R231). -/
def byteOffset (idx : BitVec 5) : Nat := 4 * idx.toNat

/-- The register at a byte offset (R27); `none` at a reserved offset (R38). -/
def regAtOffset (off : Nat) : Option Reg :=
  match off with
  | 0x00 => some .config
  | 0x04 => some .ctrl
  | 0x08 => some .status
  | 0x0C => some .err
  | 0x10 => some .cmd
  | 0x14 => some .result
  | 0x18 => some .vresult
  | 0x20 => some .opa
  | 0x24 => some .opb
  | 0x28 => some .addr
  | 0x2C => some .count
  | 0x30 => some .stride
  | 0x40 => some (.vlane 0)
  | 0x44 => some (.vlane 1)
  | 0x48 => some (.vlane 2)
  | 0x4C => some (.vlane 3)
  | 0x50 => some (.vlane 4)
  | 0x54 => some (.vlane 5)
  | 0x58 => some (.vlane 6)
  | 0x5C => some (.vlane 7)
  | 0x60 => some (.mask 0)
  | 0x64 => some (.mask 1)
  | 0x68 => some (.mask 2)
  | _ => none

/-- The register a word index selects. -/
def regAt (idx : BitVec 5) : Option Reg := regAtOffset (byteOffset idx)

/-- The byte offset of a register, from the table of R27. -/
def Reg.offset : Reg → Nat
  | .config => 0x00
  | .ctrl => 0x04
  | .status => 0x08
  | .err => 0x0C
  | .cmd => 0x10
  | .result => 0x14
  | .vresult => 0x18
  | .opa => 0x20
  | .opb => 0x24
  | .addr => 0x28
  | .count => 0x2C
  | .stride => 0x30
  | .vlane i => 0x40 + 4 * i.val
  | .mask i => 0x60 + 4 * i.val

/-- The word index of a register. -/
def Reg.index (r : Reg) : BitVec 5 := BitVec.ofNat 5 (Reg.offset r / 4)

/-- The address of a register as the host sees it (R69, U11). -/
def Reg.hostAddress (r : Reg) : Nat := Config.regBase + Reg.offset r

/-- One byte of `CONFIG`: `[4:0]` the shift, `[6:5]` the width code (0: 16, 1: 32, 2: 64, 3: 128), `[7]` 0 (R28). -/
def configByte (w s : Nat) : BitVec 8 := 0#1 ++ BitVec.ofNat 2 (numBits w - 4) ++ BitVec.ofNat 5 s

/-- `CONFIG` for a value of `HAS_VEC` (R28). -/
def configWord (hasVec : Bool) : Word :=
  0#7 ++ BitVec.ofBool hasVec ++ configByte Config.leafWidth Config.shift2 ++
    configByte Config.leafWidth Config.shift1 ++ configByte Config.leafWidth Config.shift0

/-- `CTRL` (R29). -/
def ctrlWord (vecEn : Bool) : Word := 0#31 ++ BitVec.ofBool vecEn

/-- `STATUS`: bit 0 `INITED`, bit 1 `VEC_ACTIVE = HAS_VEC & VEC_EN` (R30). -/
def statusWord (hasVec vecEn inited : Bool) : Word :=
  0#30 ++ BitVec.ofBool (hasVec && vecEn) ++ BitVec.ofBool inited

/-- `ERR` as it reads (R31). -/
def errWord (e : BitVec 3) : Word := 0#29 ++ e

/-- `MASKi` (R35): `M[i]`, or a free value while the masks hold none. -/
def maskWord (i : Fin 3) (s : State) : Word :=
  match s.filter with
  | some m => m.get i
  | none => Config.uninitMask s.draws

/-- The value a read of a register returns (R28 to R37); `none` for `CMD`, which cannot be read (R32, R235). -/
def regValue (r : Reg) (s : State) : Option Word :=
  match r with
  | .config => some (configWord Config.hasVec)
  | .ctrl => some (ctrlWord s.vecEn)
  | .status => some (statusWord Config.hasVec s.vecEn s.inited)
  | .err => some (errWord s.err)
  | .cmd => none
  | .result => some s.result
  | .vresult => some s.vresult
  | .opa => some s.opa
  | .opb => some s.opb
  | .addr => some s.addr
  | .count => some s.count
  | .stride => some s.stride
  | .vlane i => some s.lanes[i]
  | .mask i => some (maskWord i s)

/-- How many free values a read of a register draws: one for a mask that holds no value (R35, U3). -/
def regDraws (r : Reg) (s : State) : Nat :=
  match r with
  | .mask _ => if s.inited then 0 else 1
  | _ => 0

/-- Read transaction (R231, R236). It changes no register. -/
def portRead (idx : BitVec 5) (s : State) : State :=
  match regAt idx with
  | none => { s with answer := some .readError }
  | some r =>
    match regValue r s with
    | none => { s with answer := some .readError }
    | some v => { s with answer := some (.readOk v), draws := s.draws + regDraws r s }

/-- The new `VEC_EN` after a write of `CTRL` (R29, R238). -/
def vecEnAfterWrite (hasVec old : Bool) (data : Word) : Bool := if hasVec then data.getLsbD 0 else old

/-- The new `ERR` after a write: write one to clear (R237). -/
def errAfterWrite (old : BitVec 3) (data : Word) : BitVec 3 := old &&& ~~~(data.extractLsb' 0 3)

/-- `exec(w)` of R98: an illegal word is refused with `E_BADCMD`, a legal one runs its command (R234). -/
def launch (w : Word) (s : State) : Host.Outcome State Fault Refusal :=
  match decode w with
  | .error _ => .next (report .badcmd (opcField w) s)
  | .ok i => exec i s

/-- Write transaction (R233, R236). -/
def portWrite (idx : BitVec 5) (data : Word) (s : State) : Host.Outcome State Fault Refusal :=
  match regAt idx with
  | some .cmd => launch data { s with answer := some .writeOk }
  | some .ctrl =>
    .next { s with answer := some .writeOk, vecEn := vecEnAfterWrite Config.hasVec s.vecEn data }
  | some .err => .next { s with answer := some .writeOk, err := errAfterWrite s.err data }
  | some .opa => .next { s with answer := some .writeOk, opa := data }
  | some .opb => .next { s with answer := some .writeOk, opb := data }
  | some .addr => .next { s with answer := some .writeOk, addr := data }
  | some .count => .next { s with answer := some .writeOk, count := data }
  | some .stride => .next { s with answer := some .writeOk, stride := data }
  | some (.vlane i) => .next { s with answer := some .writeOk, lanes := s.lanes.set i data }
  | some .config => .next { s with answer := some .writeError }
  | some .status => .next { s with answer := some .writeError }
  | some .result => .next { s with answer := some .writeError }
  | some .vresult => .next { s with answer := some .writeError }
  | some (.mask _) => .next { s with answer := some .writeError }
  | none => .next { s with answer := some .writeError }

/-- One input of the machine, taken whole (R232, R290). -/
def takeEvent (e : HostEvent) (s : State) : Host.Outcome State Fault Refusal :=
  match e with
  | .rd idx => .next (portRead idx s)
  | .wr idx data => portWrite idx data s
  | .rst => .next s.afterReset
  | .platform act => .next (platformAct act s)

/-- The machine's next step: the first pending input; with none, the engine is idle and keeps all state (R16, R279). -/
def takeNext (s : State) : Host.Outcome State Fault Refusal :=
  match s.port with
  | [] => .next s
  | e :: rest => takeEvent e { s with port := rest }

/-- The write of a command word to `CMD` (R90). -/
def writeCommand (w : Word) : HostEvent := .wr (Reg.index .cmd) w

/-- The encoding of a transaction: write flag, byte offset, data (R99). -/
def HostEvent.triple : HostEvent → Option (Bool × Nat × Option Word)
  | .rd idx => some (false, byteOffset idx, none)
  | .wr idx data => some (true, byteOffset idx, some data)
  | .rst => none
  | .platform _ => none

/-- `ESZ` of a size suffix (R100). -/
def ElemSize.esz : ElemSize → Nat
  | .b => 0
  | .h => 1
  | .w => 2

/-- The transactions that load the operands of an array command and launch it (R100). -/
def arrayCall (opc : Nat) (sz : ElemSize) (be : Bool) (addr count stride : Word) : List HostEvent :=
  [ .wr (Reg.index .addr) addr, .wr (Reg.index .count) count, .wr (Reg.index .stride) stride,
    writeCommand (arrayWord opc (ElemSize.esz sz) be) ]

/-- The expansion of a pseudo-instruction (R100). -/
def Pseudo.expand : Pseudo → List HostEvent
  | .init => [writeCommand 0x01]
  | .add c => [.wr (Reg.index .opa) c, writeCommand 0x02]
  | .addRange a b => [.wr (Reg.index .opa) a, .wr (Reg.index .opb) b, writeCommand 0x03]
  | .addArray sz be addr count stride => arrayCall 4 sz be addr count stride
  | .addSortedArray sz be addr count stride => arrayCall 5 sz be addr count stride
  | .mayHave c => [.wr (Reg.index .opa) c, writeCommand 0x06, .rd (Reg.index .result)]
  | .vmayHave cs =>
    (List.finRange 8).map (fun i => .wr (Reg.index (.vlane i)) cs[i]) ++
      [writeCommand 0x07, .rd (Reg.index .result), .rd (Reg.index .vresult)]
  | .clrErr => [.wr (Reg.index .err) 0x7]

end Sys2Proof.Machine
end

