-- ==== Sys2Proof/Machine/Step.lean ====
section
/-! DEFINITION. One step of the machine, and the placing of a command where the next step takes it. -/

namespace Sys2Proof.Machine

/-- One step: the next pending input, whole (R232); the machine is idle when there is none. -/
def step (s : State) : Host.Outcome State Fault Refusal := takeNext s

/-- `s` with the host about to write this command word to `CMD`: BPFE fetches nothing, every command is delivered by
such a write (R24, R90, log entry 6). -/
def State.withFetchWord (s : State) (nbits w : Nat) : State :=
  { s with port := writeCommand (BitVec.ofNat 32 (w % 2 ^ nbits)) :: s.port }

end Sys2Proof.Machine
end

