-- ==== Sys2Proof/Safety.lean ====
section
/-! DEFINITION. The terms claims are stated in: what a step leaves unchanged (R41), the invariant of the state, which
reads the platform answers (R68, R298), and what it means for the filter to cover a codepoint (R250). -/

namespace Sys2Proof.Machine

/-- The operand registers, the lanes and `VEC_EN` are unchanged: no command writes them (R23, R25, R41). -/
def KeepsOperands (s t : State) : Prop :=
  t.opa = s.opa ∧ t.opb = s.opb ∧ t.addr = s.addr ∧ t.count = s.count ∧ t.stride = s.stride ∧
    t.lanes = s.lanes ∧ t.vecEn = s.vecEn

/-- Every byte of the external memory reads as before, and the same addresses are contested: BPFE never writes memory
(R62, R66). -/
def KeepsMemory (s t : State) : Prop :=
  (∀ a, t.mem.lookup a = s.mem.lookup a) ∧ t.contested = s.contested

/-- The pending inputs and the port's last answer are unchanged. -/
def KeepsPort (s t : State) : Prop := t.port = s.port ∧ t.answer = s.answer

/-- What every command leaves unchanged (R41). -/
def CommandFrame (s t : State) : Prop := KeepsOperands s t ∧ KeepsMemory s t ∧ KeepsPort s t

/-- The error report of R267, whole: `ERR` bit `bit` is set and no other changes, `RESULT` is `opc` and `code` with the
safe answer for a query, `VRESULT` is all ones for `OPC` 7, and nothing else changes. -/
def Reported (bit code opc : Nat) (s t : State) : Prop :=
  t.err.getLsbD bit = true ∧ (∀ k, k ≠ bit → t.err.getLsbD k = s.err.getLsbD k) ∧
    t.result.toNat = opc * 0x1000 + code * 0x100 + (if opc = 6 ∨ opc = 7 then 0x1F else 0) ∧
    t.vresult = (if opc = 7 then 0xFFFFFFFF else s.vresult) ∧
    t.filter = s.filter ∧ CommandFrame s t ∧ t.reads = s.reads

/-- Command `i`, of opcode `opc`, is refused with `E_UNINIT` (R98, R266). -/
def RefusedUninit (i : Instr) (opc : Nat) (s : State) : Prop := ∃ t, exec i s = .next t ∧ Reported 1 2 opc s t

/-- The engine's registers of R20 are all equal: only surroundings and records differ. -/
def SameEngine (s t : State) : Prop :=
  t.filter = s.filter ∧ KeepsOperands s t ∧ t.err = s.err ∧ t.result = s.result ∧ t.vresult = s.vresult

/-- The platform answers a read of this byte: the memory lists it, contested or not (R66, R68). -/
abbrev Answered (s : State) (a : Word) : Prop := (s.mem.lookup a.toNat).isSome = true

/-- The host's duty of R298: every byte an array command of `n`-byte elements reads is answered. -/
abbrev BufferAnswered (n : Nat) (s : State) : Prop := ∀ a ∈ arrayAddresses n s, Answered s a

/-- The bytes the memory read port answered between two states, in order (R72). -/
def bytesRead (s t : State) : List Byte := (t.reads.drop s.reads.length).map Prod.snd

/-- `RESULT` as a command can leave it (R33): reserved bits 0, code at most 3, `TAIL` only with `L1` and `L2`, `HIT` only
with `L0` and `TAIL` (R155), and exactly so but for a batch query (R253). -/
def ResultWf (r : Word) : Prop :=
  r.extractLsb' 16 16 = 0 ∧ r.extractLsb' 5 3 = 0 ∧ r.extractLsb' 8 4 ≤ 3 ∧
    (r.getLsbD 4 = true → r.getLsbD 2 = true ∧ r.getLsbD 3 = true) ∧
    (r.getLsbD 0 = true → r.getLsbD 1 = true ∧ r.getLsbD 4 = true) ∧
    (r.extractLsb' 12 4 ≠ 7 → r.getLsbD 4 = (r.getLsbD 2 && r.getLsbD 3) ∧ r.getLsbD 0 = (r.getLsbD 1 && r.getLsbD 4))

/-- `VRESULT` as a command can leave it: in every lane ROOT's answer is the AND of the leaves' (R253). -/
def VresultWf (v : Word) : Prop :=
  ∀ i, i < 8 → v.getLsbD i = (v.getLsbD (8 + i) && v.getLsbD (16 + i) && v.getLsbD (24 + i))

/-- The invariant every step keeps: the memory and the contested addresses are in canonical form, `VEC_EN` is 0 where
the lane datapath is not built (R29), and the answer registers are as some command left them (R33, R34, R253). -/
def State.Inv (s : State) : Prop :=
  Memory.wf s.mem ∧ AddressesWf s.contested ∧ (Config.hasVec = false → s.vecEn = false) ∧
    ResultWf s.result ∧ VresultWf s.vresult

/-- The filter answers "might contain" for `c`. -/
def Covers (s : State) (c : Word) : Prop := ∃ m, s.filter = some m ∧ m.mayHave c = true

/-- An input that empties the filter: INIT or reset (R21, R250). -/
def ClearsFilter (e : HostEvent) : Prop := e = .rst ∨ e = writeCommand 0x00000001

/-- The element size and byte order of an array command (R91, R93); `none` for a command that is none. -/
def arrayShape : Instr → Option (Nat × Bool)
  | .init => none
  | .add => none
  | .addRange => none
  | .addArrayB be => some (1, be)
  | .addArrayH be => some (2, be)
  | .addArrayW be => some (4, be)
  | .addSortedArrayB be => some (1, be)
  | .addSortedArrayH be => some (2, be)
  | .addSortedArrayW be => some (4, be)
  | .query => none
  | .vquery => none

/-- `c` is among the codepoints that command `i`, run from `s` to `t`, added (R250). -/
def AddedBy (i : Instr) (s t : State) (c : Word) : Prop :=
  match i with
  | .init => False
  | .add => c = s.opa
  | .addRange => s.opa ≤ c ∧ c ≤ s.opb
  | .addArrayB be => c ∈ elementsOf 1 be s.count.toNat (bytesRead s t)
  | .addArrayH be => c ∈ elementsOf 2 be s.count.toNat (bytesRead s t)
  | .addArrayW be => c ∈ elementsOf 4 be s.count.toNat (bytesRead s t)
  | .addSortedArrayB be => c ∈ elementsOf 1 be s.count.toNat (bytesRead s t)
  | .addSortedArrayH be => c ∈ elementsOf 2 be s.count.toNat (bytesRead s t)
  | .addSortedArrayW be => c ∈ elementsOf 4 be s.count.toNat (bytesRead s t)
  | .query => False
  | .vquery => False

/-- Mask `m'` holds every bit of mask `m` (R133, R251). -/
def Grows {w : Nat} (m m' : BitVec w) : Prop := m' &&& m = m

/-- Every mask only gained bits (R251). -/
def MasksGrow (m m' : Masks) : Prop := Grows m.m0 m'.m0 ∧ Grows m.m1 m'.m1 ∧ Grows m.m2 m'.m2

/-- The bits of a 32-bit mask `m'` are those of `m` and bucket `bk c` of every `c` that `added` admits. -/
def MaskAdds (added : Word → Prop) (bk : Nat → Nat) (m m' : Word) : Prop :=
  ∀ k, k < 32 → (m'.getLsbD k = true ↔ m.getLsbD k = true ∨ ∃ c, added c ∧ bk c.toNat = k)

/-- The three masks gained exactly the buckets `c[8:4]`, `c[4:0]`, `c[13:9]` of the codepoints that `added` admits
(R154). -/
def MasksAdd (added : Word → Prop) (m m' : Masks) : Prop :=
  MaskAdds added (fun c => c / 16 % 32) m.m0 m'.m0 ∧ MaskAdds added (fun c => c % 32) m.m1 m'.m1 ∧
    MaskAdds added (fun c => c / 512 % 32) m.m2 m'.m2

/-- A mutation of a filter tree (R152). -/
inductive Mutation where
  | add (c : Word)
  | range (a b : Word)
  | array (cs : List Word)
  | sortedArray (cs : List Word)
  deriving DecidableEq, Repr

/-- The filter after a mutation (R152). -/
def Mutation.apply (f : Filter) : Mutation → Filter
  | .add c => f.add c
  | .range a b => f.addRange a b
  | .array cs => f.addArray cs
  | .sortedArray cs => f.addSortedArray cs

/-- The masks after a mutation of ROOT (R152, R154). -/
def Mutation.onMasks (m : Masks) : Mutation → Masks
  | .add c => m.add c
  | .range a b => m.addRange a b
  | .array cs => cs.foldl Masks.add m
  | .sortedArray cs => cs.foldl Masks.add m

/-- `c` is among the codepoints a mutation adds (R250). -/
def Mutation.adds (c : Word) : Mutation → Prop
  | .add d => c = d
  | .range a b => a ≤ c ∧ c ≤ b
  | .array cs => c ∈ cs
  | .sortedArray cs => c ∈ cs

end Sys2Proof.Machine
end

