-- ==== Sys2Proof/Certificates/Slice0/Obligations.lean ====
section
/-! DEFINITION. The statements for the provers, from the numbered rules of spec/. -/

namespace Sys2Proof

open Machine

/-! ### Shared forms of the array statements -/

/-- What an array command of `n`-byte elements does (R190 to R193, R72). When `INITED = 1` and every byte it reads is
answered, it reads exactly the addresses of R72, in that order; a byte no other agent is changing is the byte the memory
holds; the masks gain exactly the buckets of the elements as read; `RESULT` is `opc` alone; all else is unchanged. While
`INITED = 0` it is refused and reads nothing. -/
def ArrayCommandAdds (i : Instr) (opc n : Nat) (be : Bool) : Prop :=
  ∀ s : State,
    (∀ m, s.filter = some m → BufferAnswered n s →
      ∃ t m', exec i s = .next t ∧ t.filter = some m' ∧
        t.reads = s.reads ++ (arrayAddresses n s).zip (bytesRead s t) ∧
        (bytesRead s t).length = n * s.count.toNat ∧
        (∀ p ∈ (arrayAddresses n s).zip (bytesRead s t),
          p.1.toNat ∉ s.contested → s.mem.lookup p.1.toNat = some p.2) ∧
        MasksAdd (fun c => c ∈ elementsOf n be s.count.toNat (bytesRead s t)) m m' ∧
        t.result = BitVec.ofNat 32 (opc * 0x1000) ∧ t.err = s.err ∧ t.vresult = s.vresult ∧ CommandFrame s t) ∧
    (s.filter = none → RefusedUninit i opc s)

/-- The memory holds the `n`-byte elements `f 0`, `f 1`, ... of an array command in byte order `be`, and no other agent
touches them: byte `k` of element `i`, at `ADDR + i*STRIDE + k`, has weight `2^(8*k)` (little-endian) or
`2^(8*(n-1-k))` (big-endian). -/
def HoldsElements (s : State) (n : Nat) (be : Bool) (f : Nat → Word) : Prop :=
  ∀ i k, i < s.count.toNat → k < n →
    ((s.addr.toNat + i * s.stride.toNat + k) % 2 ^ 32 ∉ s.contested) ∧
    s.mem.lookup ((s.addr.toNat + i * s.stride.toNat + k) % 2 ^ 32) =
      some ((f i).extractLsb' (8 * (if be then n - 1 - k else k)) 8)

/-- What an array command does over ordinary memory that holds the elements `f` (each below `2^(8*n)`): it completes and
the masks gain exactly the buckets of `f 0` to `f (COUNT - 1)` (R64, R190 to R192). -/
def ArrayCommandIngests (i : Instr) (n : Nat) (be : Bool) : Prop :=
  ∀ (s : State) (m : Masks) (f : Nat → Word), s.filter = some m → HoldsElements s n be f →
    (∀ j, j < s.count.toNat → (f j).toNat < 2 ^ (8 * n)) →
    ∃ t m', exec i s = .next t ∧ t.filter = some m' ∧
      MasksAdd (fun c => ∃ j, j < s.count.toNat ∧ c = f j) m m' ∧ t.draws = s.draws

/-- An array command whose reads are all answered but for some byte: the first unanswered address, in the order of R72,
is where it is held (R68). -/
def ArrayCommandHeld (i : Instr) (n : Nat) : Prop :=
  ∀ (s : State) (a : Word), s.inited = true →
    (exec i s = .fault (.readUnanswered a) ↔
      ∃ before after, arrayAddresses n s = before ++ a :: after ∧ (∀ x ∈ before, Answered s x) ∧ ¬ Answered s a)

/-- `b` is what `a` is but for the `OPC` digit of `RESULT`, 5 in place of 4. -/
def SameButOpc (a b : Host.Outcome State Fault Refusal) : Prop :=
  match a, b with
  | .next t, .next u =>
    u = { t with result := u.result } ∧ t.result.extractLsb' 12 4 = 4 ∧ u.result.extractLsb' 12 4 = 5 ∧
      u.result.extractLsb' 0 12 = t.result.extractLsb' 0 12 ∧ u.result.extractLsb' 16 16 = t.result.extractLsb' 16 16
  | .fault e, .fault f => e = f
  | _, _ => False

end Sys2Proof

open Sys2Proof Sys2Proof.Machine

/-! ### Encoding -/

/-- R93: words written out from the opcode map decode to the commands they stand for, and words of R96 do not. -/
def Obligations.SpecWordsDecode : Prop :=
  decode 0x00000001 = .ok .init ∧ decode 0x00000002 = .ok .add ∧ decode 0x00000003 = .ok .addRange ∧
  decode 0x00000004 = .ok (.addArrayB false) ∧ decode 0x00000054 = .ok (.addArrayH true) ∧
  decode 0x00000024 = .ok (.addArrayW false) ∧ decode 0x00000045 = .ok (.addSortedArrayB true) ∧
  decode 0x00000015 = .ok (.addSortedArrayH false) ∧ decode 0x00000065 = .ok (.addSortedArrayW true) ∧
  decode 0x00000006 = .ok .query ∧ decode 0x00000007 = .ok .vquery ∧
  decode 0x00000000 = .error .reservedOpc ∧ decode 0x00000034 = .error .reservedEsz ∧
  decode 0x00000016 = .error .fieldNotZero ∧ decode 0x00000081 = .error .reservedBits

/-- A word decodes to a command exactly when it is that command's word: no bit of an encoding is dropped, and no second
word stands for the command. -/
def Obligations.DecodeInvertsEncode : Prop :=
  ∀ (i : Instr) (w : Word), decode w = .ok i ↔ w = encode i

/-- R96: the decoder accepts exactly the words for which (a), (b) and (c) hold; every other word written to `CMD` is
refused with `E_BADCMD`, changes no mask, reads no memory and leaves `INITED`. -/
def Obligations.DecoderAcceptsExactlyLegalWords : Prop :=
  ∀ w : Word, ((∃ i, decode w = .ok i) ↔
      (w.extractLsb' 7 25 = 0 ∧ (1 ≤ (w.extractLsb' 0 4).toNat ∧ (w.extractLsb' 0 4).toNat ≤ 7) ∧
        (if w.extractLsb' 0 4 = 4 ∨ w.extractLsb' 0 4 = 5 then w.extractLsb' 4 2 ≠ 3 else w.extractLsb' 4 3 = 0))) ∧
    ∀ (s : State) (rest : List HostEvent), s.port = .wr 4 w :: rest → (∀ i, decode w ≠ .ok i) →
      ∃ t, step s = .next t ∧ t.result.extractLsb' 8 4 = 3 ∧ t.err.getLsbD 2 = true ∧ t.filter = s.filter ∧
        t.inited = s.inited ∧ t.reads = s.reads

/-- R93: the legal words are exactly the seventeen listed, each the command of its row; and for one-byte elements the
two byte orders do the same thing. -/
def Obligations.LegalWordsAreTheSeventeen : Prop :=
  (∀ (w : Word) (i : Instr), decode w = .ok i ↔
    (w, i) ∈ ([(0x01, .init), (0x02, .add), (0x03, .addRange), (0x06, .query), (0x07, .vquery),
      (0x04, .addArrayB false), (0x14, .addArrayH false), (0x24, .addArrayW false),
      (0x44, .addArrayB true), (0x54, .addArrayH true), (0x64, .addArrayW true),
      (0x05, .addSortedArrayB false), (0x15, .addSortedArrayH false), (0x25, .addSortedArrayW false),
      (0x45, .addSortedArrayB true), (0x55, .addSortedArrayH true), (0x65, .addSortedArrayW true)] :
      List (Word × Instr))) ∧
  ∀ s : State, exec (.addArrayB true) s = exec (.addArrayB false) s ∧
    exec (.addSortedArrayB true) s = exec (.addSortedArrayB false) s

/-- The opcode table and the decoder agree: a row's mask and match accept a word exactly when the word decodes to a
command of the row's mnemonic, and no word is of two rows. -/
def Obligations.TableRowsMatchDecoder : Prop :=
  (∀ r ∈ opcodeRows, ∀ w : Word, r.accepts w = true ↔ ∃ i, decode w = .ok i ∧ i.mnemonic = r.mnemonic) ∧
  (∀ r ∈ opcodeRows, ∀ r' ∈ opcodeRows, ∀ w : Word, r.accepts w = true → r'.accepts w = true → r = r')

/-! ### The step and the launch of a command -/

/-- R98, R234: a write of a command's word to `CMD` runs that command; the step adds that the transaction is taken from
the pending inputs and answers `reg_err = 0`. -/
def Obligations.StepRunsDecodedCommand : Prop :=
  ∀ (s : State) (rest : List HostEvent) (w : Word) (i : Instr),
    s.port = .wr 4 w :: rest → decode w = .ok i →
      step s = exec i { s with port := rest, answer := some .writeOk }

/-- R267, R268: a command word reports at most one error, the first check that fails: legality of the word
(`E_BADCMD`), then `INITED` (`E_UNINIT`), then the order of the range (`E_RANGE`). The report is all that happens; a
command that passes the checks reports nothing. -/
def Obligations.CommandErrorsReported : Prop :=
  ∀ (s : State) (rest : List HostEvent) (w : Word), s.port = .wr 4 w :: rest →
    ((∀ i, decode w ≠ .ok i) →
      ∃ t, step s = .next t ∧ Reported 2 3 (w.toNat % 16) { s with port := rest, answer := some .writeOk } t) ∧
    ∀ i, decode w = .ok i →
      if i ≠ .init ∧ s.inited = false then
        ∃ t, step s = .next t ∧ Reported 1 2 (w.toNat % 16) { s with port := rest, answer := some .writeOk } t
      else if i = .addRange ∧ s.opb < s.opa then
        ∃ t, step s = .next t ∧ Reported 0 1 3 { s with port := rest, answer := some .writeOk } t
      else ∀ t, step s = .next t → t.result.extractLsb' 8 4 = 0 ∧ t.err = s.err

/-- With no input pending the engine is idle and keeps all state (R279; the idle step itself is the model's, log
entry 6). -/
def Obligations.IdleStepKeepsState : Prop := ∀ s : State, s.port = [] → step s = .next s

/-! ### Reset -/

/-- R40: the state after reset. -/
def Obligations.ResetState : Prop :=
  State.reset.filter = none ∧ State.reset.inited = false ∧
  State.reset.opa = 0 ∧ State.reset.opb = 0 ∧ State.reset.addr = 0 ∧ State.reset.count = 0 ∧
  State.reset.stride = 0 ∧ (∀ i : Fin 8, State.reset.lanes[i] = 0) ∧ State.reset.vecEn = Config.hasVec ∧
  State.reset.err = 0 ∧ State.reset.result = 0 ∧ State.reset.vresult = 0

/-- R290: a reset taken in any state yields exactly the engine state of R40. -/
def Obligations.RstYieldsResetState : Prop :=
  ∀ (s : State) (rest : List HostEvent), s.port = .rst :: rest → ∃ t, step s = .next t ∧ SameEngine State.reset t

/-! ### The register port -/

/-- R231: every readable register returns its value with `reg_err = 0`; a mask that holds no value returns some word
(R35); every other read is a bus error. No read changes a register. -/
def Obligations.ReadsReturnRegisters : Prop :=
  ∀ (s : State) (rest : List HostEvent),
    (∀ q ∈ ([
      (0, if Config.hasVec then 0x01292024 else 0x00292024),
      (1, if s.vecEn then 1 else 0),
      (2, (if s.inited then 1 else 0) ||| (if Config.hasVec && s.vecEn then 2 else 0)),
      (3, s.err.setWidth 32),
      (5, s.result), (6, s.vresult),
      (8, s.opa), (9, s.opb), (10, s.addr), (11, s.count), (12, s.stride),
      (16, s.lanes[0]), (17, s.lanes[1]), (18, s.lanes[2]), (19, s.lanes[3]),
      (20, s.lanes[4]), (21, s.lanes[5]), (22, s.lanes[6]), (23, s.lanes[7])] : List (BitVec 5 × Word)),
      s.port = .rd q.1 :: rest → step s = .next { s with port := rest, answer := some (.readOk q.2) }) ∧
    (∀ m, s.filter = some m → ∀ q ∈ ([(24, m.m0), (25, m.m1), (26, m.m2)] : List (BitVec 5 × Word)),
      s.port = .rd q.1 :: rest → step s = .next { s with port := rest, answer := some (.readOk q.2) }) ∧
    (s.filter = none → ∀ idx ∈ ([24, 25, 26] : List (BitVec 5)), s.port = .rd idx :: rest →
      ∃ t v, step s = .next t ∧ t.answer = some (.readOk v) ∧ SameEngine s t ∧ KeepsMemory s t) ∧
    (∀ idx ∈ ([4, 7, 13, 14, 15, 27, 28, 29, 30, 31] : List (BitVec 5)), s.port = .rd idx :: rest →
      step s = .next { s with port := rest, answer := some .readError })

/-- R35: `MASKi` reads `M[i]` while `INITED = 1`, reads some word without error and without effect while `INITED = 0`,
and cannot be written. -/
def Obligations.MaskRegistersAreReadOnly : Prop :=
  ∀ (s : State) (rest : List HostEvent) (i : Fin 3),
    (s.port = .rd (BitVec.ofNat 5 (24 + i.val)) :: rest →
      (∀ m, s.filter = some m →
        step s = .next { s with port := rest, answer := some (.readOk (m.get i)) }) ∧
      (s.filter = none →
        ∃ t v, step s = .next t ∧ t.answer = some (.readOk v) ∧ SameEngine s t ∧ KeepsMemory s t)) ∧
    (∀ data, s.port = .wr (BitVec.ofNat 5 (24 + i.val)) data :: rest →
      step s = .next { s with port := rest, answer := some .writeError })

/-- A read of `MASKi` while `INITED = 0` completes without error with a free value and changes no register; each read
draws afresh (R35, U3; the draw counter is the model's, log entries 3 and 8). It says nothing of the word returned. -/
def Obligations.UninitialisedMaskReadIsFree : Prop :=
  ∀ (s : State) (rest : List HostEvent), s.filter = none → ∀ idx ∈ ([24, 25, 26] : List (BitVec 5)),
    s.port = .rd idx :: rest →
      step s = .next { s with
        port := rest, answer := some (.readOk (Config.uninitMask s.draws)), draws := s.draws + 1 }

/-- R236: a transaction that R235 does not permit answers `reg_err = 1` and changes no state; every other transaction
that completes answers `reg_err = 0`. -/
def Obligations.BusErrorsExactly : Prop :=
  (∀ (s : State) (rest : List HostEvent) (idx : BitVec 5), s.port = .rd idx :: rest →
    (4 * idx.toNat ∈ [0x10, 0x1C, 0x34, 0x38, 0x3C, 0x6C, 0x70, 0x74, 0x78, 0x7C] →
      step s = .next { s with port := rest, answer := some .readError }) ∧
    (4 * idx.toNat ∉ [0x10, 0x1C, 0x34, 0x38, 0x3C, 0x6C, 0x70, 0x74, 0x78, 0x7C] →
      ∃ t v, step s = .next t ∧ t.answer = some (.readOk v) ∧ SameEngine s t ∧ KeepsMemory s t)) ∧
  (∀ (s : State) (rest : List HostEvent) (idx : BitVec 5) (data : Word), s.port = .wr idx data :: rest →
    (4 * idx.toNat ∈ [0x00, 0x08, 0x14, 0x18, 0x1C, 0x34, 0x38, 0x3C, 0x60, 0x64, 0x68, 0x6C, 0x70, 0x74, 0x78, 0x7C] →
      step s = .next { s with port := rest, answer := some .writeError }) ∧
    (4 * idx.toNat ∉ [0x00, 0x08, 0x14, 0x18, 0x1C, 0x34, 0x38, 0x3C, 0x60, 0x64, 0x68, 0x6C, 0x70, 0x74, 0x78, 0x7C] →
      ∀ t, step s = .next t → t.answer = some .writeOk))

/-- R36, R37: a write of an operand or lane register stores all 32 bits there and changes nothing else; a read of it
returns them. -/
def Obligations.OperandWritesStore : Prop :=
  ∀ (s : State) (rest : List HostEvent) (data : Word),
    (s.port = .wr 8 data :: rest → step s = .next { s with port := rest, answer := some .writeOk, opa := data }) ∧
    (s.port = .wr 9 data :: rest → step s = .next { s with port := rest, answer := some .writeOk, opb := data }) ∧
    (s.port = .wr 10 data :: rest → step s = .next { s with port := rest, answer := some .writeOk, addr := data }) ∧
    (s.port = .wr 11 data :: rest → step s = .next { s with port := rest, answer := some .writeOk, count := data }) ∧
    (s.port = .wr 12 data :: rest → step s = .next { s with port := rest, answer := some .writeOk, stride := data }) ∧
    (∀ i : Fin 8, s.port = .wr (BitVec.ofNat 5 (16 + i.val)) data :: rest →
      ∃ t, step s = .next t ∧ t = { s with port := rest, answer := some .writeOk, lanes := t.lanes } ∧
        ∀ j : Fin 8, t.lanes[j] = if j = i then data else s.lanes[j]) ∧
    (∀ q ∈ ([(8, s.opa), (9, s.opb), (10, s.addr), (11, s.count), (12, s.stride)] : List (BitVec 5 × Word)),
      s.port = .rd q.1 :: rest → step s = .next { s with port := rest, answer := some (.readOk q.2) }) ∧
    (∀ i : Fin 8, s.port = .rd (BitVec.ofNat 5 (16 + i.val)) :: rest →
      step s = .next { s with port := rest, answer := some (.readOk s.lanes[i]) })

/-- R238: a write of `CTRL` stores bit 0 in `VEC_EN` where `HAS_VEC = 1`, leaves it where `HAS_VEC = 0`, completes
without error and changes nothing else. -/
def Obligations.CtrlWriteStoresVecEn : Prop :=
  ∀ (s : State) (rest : List HostEvent) (data : Word), s.port = .wr 1 data :: rest →
    ∃ t, step s = .next t ∧ t.vecEn = (if Config.hasVec then data.toNat % 2 == 1 else s.vecEn) ∧
      t = { s with port := rest, answer := some .writeOk, vecEn := t.vecEn }

/-- R237: a write of `ERR` clears each flag whose data bit is 1, leaves each whose data bit is 0, and changes nothing
else. -/
def Obligations.ErrWriteOneClears : Prop :=
  ∀ (s : State) (rest : List HostEvent) (data : Word), s.port = .wr 3 data :: rest →
    ∃ t, step s = .next t ∧ (∀ k, k < 3 → t.err.getLsbD k = (s.err.getLsbD k && !data.getLsbD k)) ∧
      t = { s with port := rest, answer := some .writeOk, err := t.err }

/-! ### The commands: INIT, ADD, ADD_RANGE -/

/-- R170: INIT completes in every state, whatever `INITED`: all masks 0, `INITED` 1, `RESULT = 0x0000_1000`, all else
unchanged and no memory read; afterwards every QUERY answers 0 as long as the masks stay. -/
def Obligations.InitEmptiesFilter : Prop :=
  ∀ s : State, ∃ t m, exec .init s = .next t ∧ t.filter = some m ∧ t.inited = true ∧
    (∀ k, m.m0.getLsbD k = false ∧ m.m1.getLsbD k = false ∧ m.m2.getLsbD k = false) ∧
    t.result = 0x00001000 ∧ t.err = s.err ∧ t.vresult = s.vresult ∧ CommandFrame s t ∧ t.reads = s.reads ∧
    ∀ u, u.filter = t.filter → ∃ v, exec .query u = .next v ∧ v.result = 0x00006000

/-- R171: ADD completes whenever `INITED = 1`: each mask gains exactly the bucket of `OPA`, `RESULT = 0x0000_2000`, all
else unchanged and no memory read; while `INITED = 0` it is refused. -/
def Obligations.AddSetsThreeBuckets : Prop :=
  ∀ s : State,
    (∀ m, s.filter = some m → ∃ t m', exec .add s = .next t ∧ t.filter = some m' ∧
      MasksAdd (fun c => c = s.opa) m m' ∧
      t.result = 0x00002000 ∧ t.err = s.err ∧ t.vresult = s.vresult ∧ CommandFrame s t ∧ t.reads = s.reads) ∧
    (s.filter = none → RefusedUninit .add 2 s)

/-- R172: ADD_RANGE completes whenever `INITED = 1` and `OPA ≤ OPB`: each mask gains exactly the buckets of the members
of `[OPA, OPB]`, `RESULT = 0x0000_3000`, all else unchanged and no memory read; with `OPA > OPB` it is refused with
`E_RANGE`, and while `INITED = 0` with `E_UNINIT`. -/
def Obligations.AddRangeAddsItsMembers : Prop :=
  ∀ s : State,
    (∀ m, s.filter = some m → s.opa ≤ s.opb → ∃ t m', exec .addRange s = .next t ∧ t.filter = some m' ∧
      MasksAdd (fun c => s.opa ≤ c ∧ c ≤ s.opb) m m' ∧
      t.result = 0x00003000 ∧ t.err = s.err ∧ t.vresult = s.vresult ∧ CommandFrame s t ∧ t.reads = s.reads) ∧
    (s.inited = true → s.opb < s.opa → ∃ t, exec .addRange s = .next t ∧ Reported 0 1 3 s t) ∧
    (s.filter = none → RefusedUninit .addRange 3 s)

/-! ### The array commands -/

/-- R190, R193: the six array commands, for either byte order, add the elements as read. -/
def Obligations.ArrayCommandsAddElementsAsRead : Prop :=
  ∀ be : Bool, ArrayCommandAdds (.addArrayB be) 4 1 be ∧ ArrayCommandAdds (.addArrayH be) 4 2 be ∧
    ArrayCommandAdds (.addArrayW be) 4 4 be ∧ ArrayCommandAdds (.addSortedArrayB be) 5 1 be ∧
    ArrayCommandAdds (.addSortedArrayH be) 5 2 be ∧ ArrayCommandAdds (.addSortedArrayW be) 5 4 be

/-- R192, R72: element `i` lies at `ADDR + i*STRIDE` modulo `2^32`, each element `STRIDE` after the one before, and its
bytes at consecutive addresses modulo `2^32`; a command reads the elements by rising index, each by rising address. -/
def Obligations.ElementAddressesStepByStride : Prop :=
  ∀ s : State,
    (∀ i, (elemAddr s i).toNat = (s.addr.toNat + i * s.stride.toNat) % 2 ^ 32) ∧
    elemAddr s 0 = s.addr ∧ (∀ i, elemAddr s (i + 1) = elemAddr s i + s.stride) ∧
    ∀ n i k, i < s.count.toNat → k < n →
      ((arrayAddresses n s)[n * i + k]?).map BitVec.toNat =
        some ((s.addr.toNat + i * s.stride.toNat + k) % 2 ^ 32)

/-- R191: the element its bytes make. Little-endian, byte `k` has weight `2^(8*k)`; big-endian, `2^(8*(n-1-k))`; the
result is zero-extended. -/
def Obligations.ElementsAssembleByWeight : Prop :=
  ∀ b₀ b₁ b₂ b₃ : Byte,
    (assemble false [b₀]).toNat = b₀.toNat ∧ (assemble true [b₀]).toNat = b₀.toNat ∧
    (assemble false [b₀, b₁]).toNat = b₀.toNat + b₁.toNat * 2 ^ 8 ∧
    (assemble true [b₀, b₁]).toNat = b₁.toNat + b₀.toNat * 2 ^ 8 ∧
    (assemble false [b₀, b₁, b₂, b₃]).toNat =
      b₀.toNat + b₁.toNat * 2 ^ 8 + b₂.toNat * 2 ^ 16 + b₃.toNat * 2 ^ 24 ∧
    (assemble true [b₀, b₁, b₂, b₃]).toNat =
      b₃.toNat + b₂.toNat * 2 ^ 8 + b₁.toNat * 2 ^ 16 + b₀.toNat * 2 ^ 24

/-- R64, R191, R192: the array commands ingest the elements that ordinary memory holds, of 1, 2 or 4 bytes, in either
byte order, at any address and stride modulo `2^32`. -/
def Obligations.ArrayCommandsIngestOrdinaryBuffers : Prop :=
  ∀ be : Bool, ArrayCommandIngests (.addArrayB be) 1 be ∧ ArrayCommandIngests (.addArrayH be) 2 be ∧
    ArrayCommandIngests (.addArrayW be) 4 be ∧ ArrayCommandIngests (.addSortedArrayB be) 1 be ∧
    ArrayCommandIngests (.addSortedArrayH be) 2 be ∧ ArrayCommandIngests (.addSortedArrayW be) 4 be

/-- R68: an array command has no next state exactly when the platform never answers some byte it reads; it never takes
a value for it. -/
def Obligations.ArrayCommandsHeldByUnansweredRead : Prop :=
  ∀ be : Bool, ArrayCommandHeld (.addArrayB be) 1 ∧ ArrayCommandHeld (.addArrayH be) 2 ∧
    ArrayCommandHeld (.addArrayW be) 4 ∧ ArrayCommandHeld (.addSortedArrayB be) 1 ∧
    ArrayCommandHeld (.addSortedArrayH be) 2 ∧ ArrayCommandHeld (.addSortedArrayW be) 4

/-- R193: ADD_SORTED_ARRAY does exactly what ADD_ARRAY does, in every state, but for the `OPC` echoed in `RESULT`. -/
def Obligations.SortedArrayIsArray : Prop :=
  ∀ (s : State) (be : Bool),
    SameButOpc (exec (.addArrayB be) s) (exec (.addSortedArrayB be) s) ∧
    SameButOpc (exec (.addArrayH be) s) (exec (.addSortedArrayH be) s) ∧
    SameButOpc (exec (.addArrayW be) s) (exec (.addSortedArrayW be) s)

/-- R190: an array command leaves the masks that one ADD of each element, as read, in turn leaves, driven through the
port. -/
def Obligations.ArrayIsSuccessiveAdds : Prop :=
  ∀ (s t : State) (be : Bool) (rest : List HostEvent), s.inited = true →
    ∀ q ∈ [(Instr.addArrayB be, 1), (.addArrayH be, 2), (.addArrayW be, 4),
      (.addSortedArrayB be, 1), (.addSortedArrayH be, 2), (.addSortedArrayW be, 4)],
    exec q.1 s = .next t →
      let adds := (elementsOf q.2 be s.count.toNat (bytesRead s t)).flatMap fun c => Pseudo.expand (.add c)
      ∃ u, core.run (2 * s.count.toNat) { s with port := adds ++ rest } = .next u ∧
        u.filter = t.filter ∧ u.port = rest

/-- A command that completes draws one free value for each contested byte it reads, and no other (the draw counter is
the model's, log entries 4 and 8). -/
def Obligations.CommandsDrawOnlyContestedBytes : Prop :=
  ∀ (i : Instr) (s t : State), exec i s = .next t →
    t.draws = s.draws + (t.reads.drop s.reads.length).countP fun p => decide (p.1.toNat ∈ s.contested)

/-! ### The queries -/

/-- R210: QUERY completes whenever `INITED = 1`, with each leaf's bit at its bucket of `OPA`, `TAIL = L1 & L2`,
`HIT = L0 & TAIL`, code 0 and opcode 6 in `RESULT`; all else is unchanged and no memory read. While `INITED = 0` it is
refused with the safe answer. -/
def Obligations.QueryReportsLeafAnswers : Prop :=
  ∀ s : State,
    (∀ m, s.filter = some m → ∃ t, exec .query s = .next t ∧
      t.result.getLsbD 1 = m.m0.getLsbD (s.opa.toNat / 16 % 32) ∧
      t.result.getLsbD 2 = m.m1.getLsbD (s.opa.toNat % 32) ∧
      t.result.getLsbD 3 = m.m2.getLsbD (s.opa.toNat / 512 % 32) ∧
      t.result.getLsbD 4 = (t.result.getLsbD 2 && t.result.getLsbD 3) ∧
      t.result.getLsbD 0 = (t.result.getLsbD 1 && t.result.getLsbD 4) ∧
      t.result.toNat / 32 = 0x6000 / 32 ∧
      t.filter = s.filter ∧ t.err = s.err ∧ t.vresult = s.vresult ∧ CommandFrame s t ∧ t.reads = s.reads) ∧
    (s.filter = none → RefusedUninit .query 6 s)

/-- R211, R155: VQUERY completes whenever `INITED = 1`. Lane `i` of each byte of `VRESULT` is the leaf's bit at its bucket
of `V[i]`, byte 0 their AND; each hit bit of `RESULT` is 1 exactly when some lane has it; all else is unchanged and no
memory read. While `INITED = 0` it is refused with the safe answer. -/
def Obligations.VqueryReportsLaneAnswers : Prop :=
  ∀ s : State,
    (∀ m, s.filter = some m → ∃ t, exec .vquery s = .next t ∧
      (∀ i : Fin 8,
        t.vresult.getLsbD (8 + i.val) = m.m0.getLsbD (s.lanes[i].toNat / 16 % 32) ∧
        t.vresult.getLsbD (16 + i.val) = m.m1.getLsbD (s.lanes[i].toNat % 32) ∧
        t.vresult.getLsbD (24 + i.val) = m.m2.getLsbD (s.lanes[i].toNat / 512 % 32) ∧
        t.vresult.getLsbD i.val =
          (t.vresult.getLsbD (8 + i.val) && t.vresult.getLsbD (16 + i.val) && t.vresult.getLsbD (24 + i.val))) ∧
      (t.result.getLsbD 0 = true ↔ ∃ i : Fin 8, t.vresult.getLsbD i.val = true) ∧
      (t.result.getLsbD 1 = true ↔ ∃ i : Fin 8, t.vresult.getLsbD (8 + i.val) = true) ∧
      (t.result.getLsbD 2 = true ↔ ∃ i : Fin 8, t.vresult.getLsbD (16 + i.val) = true) ∧
      (t.result.getLsbD 3 = true ↔ ∃ i : Fin 8, t.vresult.getLsbD (24 + i.val) = true) ∧
      (t.result.getLsbD 4 = true ↔
        ∃ i : Fin 8, t.vresult.getLsbD (16 + i.val) = true ∧ t.vresult.getLsbD (24 + i.val) = true) ∧
      t.result.toNat / 32 = 0x7000 / 32 ∧
      t.filter = s.filter ∧ t.err = s.err ∧ CommandFrame s t ∧ t.reads = s.reads) ∧
    (s.filter = none → RefusedUninit .vquery 7 s)

/-- R213: after a VQUERY, each lane's bits equal the bits a QUERY of that lane's value gives in the same state, and
`HIT` is the OR of the eight QUERYs' `HIT`. -/
def Obligations.BatchAgreesWithScalarQueries : Prop :=
  ∀ s : State, s.inited = true →
    ∃ (t : State) (q : Fin 8 → State), exec .vquery s = .next t ∧
      (∀ i : Fin 8, exec .query { s with opa := s.lanes[i] } = .next (q i) ∧
        t.vresult.getLsbD i.val = (q i).result.getLsbD 0 ∧
        t.vresult.getLsbD (8 + i.val) = (q i).result.getLsbD 1 ∧
        t.vresult.getLsbD (16 + i.val) = (q i).result.getLsbD 2 ∧
        t.vresult.getLsbD (24 + i.val) = (q i).result.getLsbD 3) ∧
      (t.result.getLsbD 0 = true ↔ ∃ i : Fin 8, (q i).result.getLsbD 0 = true)

/-- R130, R131, R212: the lane datapath gives, for every shift, mask and lanes, the per-lane scalar answers; `any` is 1
exactly when the 256-bit vector of per-lane ANDs is not zero; the composite's batch answer is the same by either
datapath; and VQUERY answers the same whatever `VEC_EN` is. -/
def Obligations.LaneDatapathAgrees : Prop :=
  (∀ (s : Nat) (m : Word) (cs : Vector Word 8), laneHits s m cs = leafVmayHave 32 s m cs ∧
    (∀ i : Fin 8, (laneHits s m cs)[i] = leafMayHave 32 s m cs[i]) ∧
    (anyLane (laneHits s m cs) = true ↔ laneVector s m cs ≠ 0)) ∧
  (∀ (m : Masks) (cs : Vector Word 8), batchQueryLanes m cs = batchQuery m cs) ∧
  (∀ (s t : State) (b : Bool), exec .vquery s = .next t →
    exec .vquery { s with vecEn := b } = .next { t with vecEn := b })

/-- R255: QUERY and VQUERY write nothing but `RESULT`, `VRESULT` (VQUERY only) and, when refused, one `ERR` bit; two
equal queries on equal masks give equal results. -/
def Obligations.QueriesArePure : Prop :=
  ∀ s t : State,
    (exec .query s = .next t →
      t = { s with result := t.result, err := t.err } ∧
      (t.err ≠ s.err → t.result.extractLsb' 8 4 = 2 ∧ ∀ k, k ≠ 1 → t.err.getLsbD k = s.err.getLsbD k) ∧
      ∀ u v, u.filter = s.filter → u.opa = s.opa → exec .query u = .next v → v.result = t.result) ∧
    (exec .vquery s = .next t →
      t = { s with result := t.result, vresult := t.vresult, err := t.err } ∧
      (t.err ≠ s.err → t.result.extractLsb' 8 4 = 2 ∧ ∀ k, k ≠ 1 → t.err.getLsbD k = s.err.getLsbD k) ∧
      ∀ u v, u.filter = s.filter → u.lanes = s.lanes → exec .vquery u = .next v →
        v.result = t.result ∧ v.vresult = t.vresult)

/-- The call `may_have c` of R100, driven through the port while `INITED = 1`, reads back a `RESULT` whose `HIT` is 1
exactly when every leaf's mask holds the bucket of `c`, and leaves the masks alone. -/
def Obligations.MayHaveCallReadsAnswer : Prop :=
  ∀ (s : State) (m : Masks) (c : Word) (rest : List HostEvent), s.filter = some m →
    s.port = Pseudo.expand (.mayHave c) ++ rest →
      ∃ t r, core.run 3 s = .next t ∧ t.answer = some (.readOk r) ∧ t.port = rest ∧ t.filter = some m ∧
        (r.getLsbD 0 = true ↔ m.m0.getLsbD (c.toNat / 16 % 32) = true ∧ m.m1.getLsbD (c.toNat % 32) = true ∧
          m.m2.getLsbD (c.toNat / 512 % 32) = true)

/-! ### Laws of the whole machine (46_properties.md) -/

/-- R250: no false negative. Whatever a completed command added, every later QUERY and VQUERY of it answers 1, after any
run of steps in which no INIT and no reset is taken. And for every filter tree, after any sequence of mutations, every
codepoint one of them added is answered 1, whatever the tree and its masks were before. -/
def Obligations.SoundnessOverRuns : Prop :=
  (∀ (i : Instr) (s t u : State) (c : Word) (k : Nat),
    s.inited = true → exec i s = .next t → AddedBy i s t c →
    core.run k t = .next u → (∀ e ∈ t.port.take k, ¬ ClearsFilter e) →
      (∃ v, exec .query { u with opa := c } = .next v ∧ v.result.getLsbD 0 = true) ∧
      (∀ j : Fin 8, u.lanes[j] = c →
        ∃ v, exec .vquery u = .next v ∧ v.vresult.getLsbD j.val = true ∧ v.result.getLsbD 0 = true)) ∧
  (∀ (f : Filter) (ms : List Mutation) (c : Word), (∃ x ∈ ms, x.adds c) → (ms.foldl Mutation.apply f).mayHave c = true)

/-- R251: a step that is neither INIT nor reset clears no mask bit, so no answer bit of a QUERY of a fixed codepoint goes
from 1 to 0. -/
def Obligations.StepsOnlySetMaskBits : Prop :=
  ∀ (s t : State) (m : Masks), step s = .next t → s.filter = some m → (∀ e ∈ s.port.head?, ¬ ClearsFilter e) →
    (∃ m', t.filter = some m' ∧ MasksGrow m m') ∧
    ∀ (c : Word) (v v' : State), exec .query { s with opa := c } = .next v →
      exec .query { t with opa := c } = .next v' →
      ∀ k, k < 5 → v.result.getLsbD k = true → v'.result.getLsbD k = true

/-- The invariant is kept by every step: canonical memory, `VEC_EN` 0 where `HAS_VEC = 0`, and answer registers that
satisfy the conjunction law. The canonical form is the model's choice, log entry 5. -/
def Obligations.StepKeepsInvariant : Prop :=
  ∀ s t : State, s.Inv → step s = .next t → t.Inv

/-- The invariant holds at reset. -/
def Obligations.ResetHasInvariant : Prop := State.reset.Inv

/-- R253: the conjunction law, for every combiner, and on the answer bits of every query, completed or refused: for a
codepoint and for every lane. -/
def Obligations.ConjunctionLaw : Prop :=
  (∀ (f g : Filter) (c : Word), (Filter.comb f g).mayHave c = true ↔ f.mayHave c = true ∧ g.mayHave c = true) ∧
  ∀ s t : State,
    (exec .query s = .next t →
      t.result.getLsbD 4 = (t.result.getLsbD 2 && t.result.getLsbD 3) ∧
      t.result.getLsbD 0 = (t.result.getLsbD 1 && t.result.getLsbD 4)) ∧
    (exec .vquery s = .next t → ∀ i : Fin 8,
      t.vresult.getLsbD i.val =
        (t.vresult.getLsbD (8 + i.val) && t.vresult.getLsbD (16 + i.val) && t.vresult.getLsbD (24 + i.val)))

/-- R257: a saturated mask stays saturated at every step that is neither INIT nor reset, and its leaf answers 1 to every
query; with all three saturated every QUERY gives `RESULT = 0x0000_601F`. -/
def Obligations.SaturationIsAbsorbing : Prop :=
  (∀ (s : State) (m : Masks) (i : Fin 3), s.filter = some m → m.get i = 0xFFFFFFFF →
    (∀ t, step s = .next t → (∀ e ∈ s.port.head?, ¬ ClearsFilter e) →
      ∃ m', t.filter = some m' ∧ m'.get i = 0xFFFFFFFF) ∧
    (∃ t, exec .query s = .next t ∧ t.result.getLsbD (1 + i.val) = true) ∧
    (∃ t, exec .vquery s = .next t ∧ ∀ j : Fin 8, t.vresult.getLsbD (8 * (1 + i.val) + j.val) = true)) ∧
  (∀ s : State, s.filter = some ⟨0xFFFFFFFF, 0xFFFFFFFF, 0xFFFFFFFF⟩ →
    ∃ t, exec .query s = .next t ∧ t.result = 0x0000601F)

/-- R256: two states with the same masks answer every query of the same operands alike, and equal mutations leave equal
masks, whatever else differs; the order of mutations does not matter, and repeating one has no further effect. -/
def Obligations.FiltersAreTheirMasks : Prop :=
  (∀ (s t : State) (m : Masks), s.filter = some m → t.filter = some m →
    (s.opa = t.opa → ∃ s' t', exec .query s = .next s' ∧ exec .query t = .next t' ∧ s'.result = t'.result) ∧
    (s.lanes = t.lanes → ∃ s' t', exec .vquery s = .next s' ∧ exec .vquery t = .next t' ∧
      s'.result = t'.result ∧ s'.vresult = t'.vresult) ∧
    (s.opa = t.opa → ∃ s' t', exec .add s = .next s' ∧ exec .add t = .next t' ∧ s'.filter = t'.filter) ∧
    (s.opa = t.opa → s.opb = t.opb →
      ∃ s' t', exec .addRange s = .next s' ∧ exec .addRange t = .next t' ∧ s'.filter = t'.filter) ∧
    (∀ (i j : Instr) (n n' : Nat) (be be' : Bool) (s' t' : State),
      arrayShape i = some (n, be) → arrayShape j = some (n', be') → exec i s = .next s' → exec j t = .next t' →
      elementsOf n be s.count.toNat (bytesRead s s') = elementsOf n' be' t.count.toNat (bytesRead t t') →
      s'.filter = t'.filter)) ∧
  (∀ (m : Masks) (x y : Mutation), y.onMasks (x.onMasks m) = x.onMasks (y.onMasks m) ∧
    x.onMasks (x.onMasks m) = x.onMasks m)

/-- R41: the write set of every step. What changes, changes by a step that may write it: a reset, which puts everything
to the values of R40; a host write of that very register; or a command of R41's rows. The masks and `INITED` change only
by INIT, to masks of 0, or by a command of `OPC` 2 to 5 with `INITED = 1`, which sets mask bits and no more. -/
def Obligations.EveryStepStaysInItsWriteSet : Prop :=
  ∀ s t : State, step s = .next t →
    (s.port.head? = some .rst → SameEngine State.reset t) ∧
    (s.port.head? ≠ some .rst →
      (t.opa = s.opa ∨ s.port.head? = some (.wr 8 t.opa)) ∧
      (t.opb = s.opb ∨ s.port.head? = some (.wr 9 t.opb)) ∧
      (t.addr = s.addr ∨ s.port.head? = some (.wr 10 t.addr)) ∧
      (t.count = s.count ∨ s.port.head? = some (.wr 11 t.count)) ∧
      (t.stride = s.stride ∨ s.port.head? = some (.wr 12 t.stride)) ∧
      (∀ i : Fin 8, t.lanes[i] = s.lanes[i] ∨ s.port.head? = some (.wr (BitVec.ofNat 5 (16 + i.val)) t.lanes[i])) ∧
      (t.vecEn = s.vecEn ∨
        (Config.hasVec = true ∧ ∃ d, s.port.head? = some (.wr 1 d) ∧ t.vecEn = d.getLsbD 0)) ∧
      (∀ k, t.err.getLsbD k = s.err.getLsbD k ∨
        (t.err.getLsbD k = false ∧ ∃ d, s.port.head? = some (.wr 3 d) ∧ d.getLsbD k = true) ∨
        (t.err.getLsbD k = true ∧ (t.result.extractLsb' 8 4).toNat = k + 1 ∧ ∃ w, s.port.head? = some (.wr 4 w))) ∧
      (t.result = s.result ∨ ∃ w, s.port.head? = some (.wr 4 w)) ∧
      (t.vresult = s.vresult ∨ ∃ w, s.port.head? = some (.wr 4 w) ∧ w.toNat % 16 = 7) ∧
      (t.filter = s.filter ∨
        (s.port.head? = some (.wr 4 0x00000001) ∧ t.filter = some ⟨0, 0, 0⟩ ∧ t.result.extractLsb' 8 4 = 0) ∨
        (∃ w m m', s.port.head? = some (.wr 4 w) ∧ 2 ≤ w.toNat % 16 ∧ w.toNat % 16 ≤ 5 ∧
          s.filter = some m ∧ t.filter = some m' ∧ MasksGrow m m' ∧ t.result.extractLsb' 8 4 = 0)))

/-- R239, R72: the memory read port is used only by an array command that completes, and then for all the bytes of its
elements and no other, in order (`reads` is the model's record of the port, log entry 8). -/
def Obligations.OnlyArrayCommandsReadMemory : Prop :=
  ∀ s t : State, step s = .next t → t.reads ≠ s.reads →
    ∃ w i n be, s.port.head? = some (.wr 4 w) ∧ decode w = .ok i ∧ arrayShape i = some (n, be) ∧
      s.inited = true ∧ (bytesRead s t).length = n * s.count.toNat ∧
      t.reads = s.reads ++ (arrayAddresses n s).zip (bytesRead s t)

/-- R62, R41: no register transaction, command or reset changes the external memory; only the platform's acts do. -/
def Obligations.EngineNeverWritesMemory : Prop :=
  ∀ s t : State, step s = .next t → (∀ act, s.port.head? ≠ some (.platform act)) → KeepsMemory s t

/-- R22: `INITED` is 0 after reset; a step sets it only by an INIT command, which always does, and clears it only by
reset; while it is 0 every other command is refused with `E_UNINIT` and the masks hold no value. -/
def Obligations.InitedFollowsLifecycle : Prop :=
  State.reset.inited = false ∧
  (∀ s t : State, step s = .next t →
    (s.inited = false → t.inited = true → s.port.head? = some (.wr 4 0x00000001)) ∧
    (s.inited = true → t.inited = false → s.port.head? = some .rst) ∧
    (s.port.head? = some (.wr 4 0x00000001) → t.inited = true)) ∧
  (∀ s : State, s.inited = false → s.filter = none ∧ ∀ i, i ≠ .init → RefusedUninit i ((encode i).toNat % 16) s)

/-- R258: a command word that is refused, whatever the reason, changes no mask, and where its `OPC` field is 6 or 7 it
answers 1 in every hit bit of `RESULT`, and for 7 in every bit of `VRESULT`. -/
def Obligations.RefusalsAnswerSafely : Prop :=
  ∀ (s t : State) (rest : List HostEvent) (w : Word), s.port = .wr 4 w :: rest → step s = .next t →
    t.result.extractLsb' 8 4 ≠ 0 →
      t.filter = s.filter ∧
      (w.extractLsb' 0 4 = 6 ∨ w.extractLsb' 0 4 = 7 → ∀ k, k < 5 → t.result.getLsbD k = true) ∧
      (w.extractLsb' 0 4 = 7 → ∀ k, k < 32 → t.vresult.getLsbD k = true)

/-- R33: every command word overwrites `RESULT`: its low four bits are echoed in `OPC`, the reserved bits are 0 and the
code is at most 3. -/
def Obligations.ResultEchoesCommand : Prop :=
  ∀ (s t : State) (rest : List HostEvent) (w : Word), s.port = .wr 4 w :: rest → step s = .next t →
    t.result.extractLsb' 12 4 = w.extractLsb' 0 4 ∧ t.result.extractLsb' 16 16 = 0 ∧
      t.result.extractLsb' 5 3 = 0 ∧ (t.result.extractLsb' 8 4).toNat ≤ 3

/-- Platform acts on the memory (the model's inputs, log entry 9): a byte stored at an uncontested address is the byte
the next read there returns; a withdrawn address is no longer answered, contested or not (R68); every other address
reads as before. -/
def Obligations.PlatformStoreIsReadBack : Prop :=
  ∀ (s : State) (a : Word) (b : Byte) (rest : List HostEvent),
    (a.toNat ∉ s.contested → s.port = .platform (.store a b) :: rest →
      ∃ t, step s = .next t ∧ SameEngine s t ∧ (∃ t', readByte a t = .ok (b, t')) ∧
        ∀ x, x ≠ a.toNat → t.mem.lookup x = s.mem.lookup x) ∧
    (s.port = .platform (.withdraw a) :: rest →
      ∃ t, step s = .next t ∧ SameEngine s t ∧ readByte a t = .error (.readUnanswered a) ∧
        ∀ x, x ≠ a.toNat → t.mem.lookup x = s.mem.lookup x)

/-! ### The filter functions (40_leaf_filter.md, 41_combiner.md) -/

/-- R7: a leaf can be built exactly for the legal parameter pairs. -/
def Obligations.OnlyLegalLeavesExist : Prop :=
  ∀ w s : Nat, (∃ l, Leaf.make w s = some l ∧ l.width = w ∧ l.shift = s) ↔
    ((w = 16 ∧ s ≤ 28) ∨ (w = 32 ∧ s ≤ 27) ∨ (w = 64 ∧ s ≤ 26) ∨ (w = 128 ∧ s ≤ 25))

/-- R121, R122: for every legal leaf the bucket of `c` is `c[S+nb-1 : S]`, below the mask width, and the single-bit mask
has exactly that bit. -/
def Obligations.MaskForSetsExactlyItsBucket : Prop :=
  ∀ (l : Leaf) (c : Word),
    (bucket l.width l.shift c).toNat = c.toNat / 2 ^ l.shift % l.width ∧
    ∀ k, (maskFor l.width l.shift c).getLsbD k = decide (k = (bucket l.width l.shift c).toNat)

/-- R126: what the run arithmetic yields in its three cases, for every legal leaf and `a ≤ b`. -/
def Obligations.RunArithmeticCases : Prop :=
  ∀ (l : Leaf) (m : BitVec l.width) (a b : Word), a ≤ b →
    let d := b.toNat / 2 ^ l.shift - a.toNat / 2 ^ l.shift
    let ba := a.toNat / 2 ^ l.shift % l.width
    let bb := b.toNat / 2 ^ l.shift % l.width
    (l.width - 1 ≤ d → leafAddRange l.width l.shift m a b = BitVec.allOnes l.width) ∧
    (d < l.width - 1 → ba ≤ bb → ∀ k, k < l.width →
      (leafAddRange l.width l.shift m a b).getLsbD k = (m.getLsbD k || decide (ba ≤ k ∧ k ≤ bb))) ∧
    (d < l.width - 1 → bb < ba → bb + 2 ≤ ba ∧ ∀ k, k < l.width →
      (leafAddRange l.width l.shift m a b).getLsbD k = (m.getLsbD k || decide (ba ≤ k ∨ k ≤ bb)))

/-- R252: for every legal leaf, every mask and `a ≤ b`, `leaf_add_range` is the union of `mask_for(c)` over `c` in
`[a, b]`; and at command level ADD_RANGE leaves the masks that the `b - a + 1` ADDs of `a`, `a+1`, ..., `b`, driven
through the port, leave. -/
def Obligations.RangeEqualsElementwiseUnion : Prop :=
  (∀ (l : Leaf) (m : BitVec l.width) (a b : Word), a ≤ b → ∀ k, k < l.width →
    ((leafAddRange l.width l.shift m a b).getLsbD k = true ↔
      m.getLsbD k = true ∨ ∃ c : Word, a ≤ c ∧ c ≤ b ∧ (maskFor l.width l.shift c).getLsbD k = true)) ∧
  (∀ (s : State) (rest : List HostEvent), s.inited = true → s.opa ≤ s.opb →
    let count := s.opb.toNat - s.opa.toNat + 1
    let adds := (List.range count).flatMap fun i => Pseudo.expand (.add (s.opa + BitVec.ofNat 32 i))
    ∃ t u, exec .addRange s = .next t ∧ core.run (2 * count) { s with port := adds ++ rest } = .next u ∧
      u.filter = t.filter ∧ u.port = rest)

/-- R154, R152: the three masks are the tree `Comb(L0, Comb(L1, L2))`: each command's effect on the masks is the tree's
operation, and `HIT` is the tree's answer. -/
def Obligations.CommandsActOnTheTree : Prop :=
  ∀ (s t : State) (m : Masks), s.filter = some m →
    (exec .init s = .next t → ∃ m', t.filter = some m' ∧ m'.root = m.root.cleared) ∧
    (exec .add s = .next t → ∃ m', t.filter = some m' ∧ m'.root = m.root.add s.opa) ∧
    (exec .addRange s = .next t → s.opa ≤ s.opb → ∃ m', t.filter = some m' ∧ m'.root = m.root.addRange s.opa s.opb) ∧
    (∀ i n be, arrayShape i = some (n, be) → exec i s = .next t →
      ∃ m', t.filter = some m' ∧ m'.root = m.root.addArray (elementsOf n be s.count.toNat (bytesRead s t))) ∧
    (exec .query s = .next t → t.result.getLsbD 0 = m.root.mayHave s.opa)
end

