-- ==== Sys2Proof/Laws/Memory.lean ====
section
/-! SUPPORT. The external memory: read after write, every operation keeps the canonical form, and what one read and a
run of reads on the memory port can do (R62, R63, R66, R68). -/

namespace Sys2Proof.Machine

/-! ### Lookup after an operation -/

theorem lookup_eq_none_of_below (m : Memory) (a : Nat) (h : ∀ c ∈ m, a < c.1) : m.lookup a = none := by
  induction m with
  | nil => rfl
  | cons c m ih =>
    have hc := h c (by simp)
    rw [Memory.lookup, if_neg (by omega)]
    exact ih fun d hd => h d (by simp [hd])

theorem lookup_store (m : Memory) (a x : Nat) (b : Byte) :
    (m.store a b).lookup x = if x = a then some b else m.lookup x := by
  induction m with
  | nil =>
    by_cases h : x = a
    · simp [Memory.store, Memory.lookup, h]
    · simp [Memory.store, Memory.lookup, h, Ne.symm h]
  | cons c m ih =>
    unfold Memory.store
    split
    · by_cases h : x = a
      · simp [Memory.lookup, h]
      · simp [Memory.lookup, h, Ne.symm h]
    · split
      · rename_i hlt heq
        by_cases h : x = a
        · simp [Memory.lookup, h]
        · have hc : ¬ c.1 = x := by omega
          simp [Memory.lookup, h, Ne.symm h, hc]
      · rename_i hlt hne
        by_cases hx : c.1 = x
        · have h : ¬ x = a := by omega
          simp [Memory.lookup, hx, h]
        · simp only [Memory.lookup, hx, if_false, ih]

theorem lookup_withdraw (m : Memory) (a x : Nat) :
    (m.withdraw a).lookup x = if x = a then none else m.lookup x := by
  induction m with
  | nil => simp [Memory.withdraw, Memory.lookup, Memory.unlisted]
  | cons c m ih =>
    unfold Memory.withdraw at ih ⊢
    by_cases hc : c.1 = a
    · simp only [List.filter_cons, hc, ne_eq, not_true_eq_false, decide_false, Bool.false_eq_true, if_false, ih]
      by_cases h : x = a
      · simp [h]
      · simp [Memory.lookup, h, hc, Ne.symm h]
    · simp only [List.filter_cons, hc, ne_eq, not_false_eq_true, decide_true, if_true, Memory.lookup, ih]
      by_cases h : x = a
      · simp [h, hc]
      · simp [h]

/-! ### The canonical form is kept -/

theorem mem_store (m : Memory) (a : Nat) (b : Byte) {c : Host.Cell} (h : c ∈ m.store a b) : c = (a, b) ∨ c ∈ m := by
  induction m with
  | nil => simpa [Memory.store] using h
  | cons d m ih =>
    unfold Memory.store at h
    split at h
    · simpa using h
    · split at h
      · rcases List.mem_cons.mp h with h | h
        · exact .inl h
        · exact .inr (by simp [h])
      · rcases List.mem_cons.mp h with h | h
        · exact .inr (by simp [h])
        · rcases ih h with h | h
          · exact .inl h
          · exact .inr (by simp [h])

theorem store_wf (m : Memory) (a : Nat) (b : Byte) (ha : a < 2 ^ 32) (h : m.wf) : (m.store a b).wf := by
  refine ⟨?_, ?_⟩
  · have hp := h.1
    clear h
    induction m with
    | nil => simp [Memory.store]
    | cons c m ih =>
      obtain ⟨hc, hm⟩ := List.pairwise_cons.mp hp
      unfold Memory.store
      split
      · rename_i hlt
        refine List.pairwise_cons.mpr ⟨fun d hd => ?_, hp⟩
        rcases List.mem_cons.mp hd with rfl | hd
        · exact hlt
        · exact Nat.lt_trans hlt (hc d hd)
      · split
        · rename_i heq
          exact List.pairwise_cons.mpr ⟨fun d hd => heq ▸ hc d hd, hm⟩
        · refine List.pairwise_cons.mpr ⟨fun d hd => ?_, ih hm⟩
          rcases mem_store m a b hd with rfl | hd
          · simp only
            omega
          · exact hc d hd
  · intro c hc
    rcases mem_store m a b hc with rfl | hc
    · exact ha
    · exact h.2 c hc

theorem withdraw_wf (m : Memory) (a : Nat) (h : m.wf) : (m.withdraw a).wf :=
  ⟨h.1.filter _, fun c hc => h.2 c (List.mem_filter.mp hc).1⟩

theorem mem_addressInsert (l : List Nat) (a x : Nat) : x ∈ addressInsert a l ↔ x = a ∨ x ∈ l := by
  induction l with
  | nil => simp [addressInsert]
  | cons y l ih =>
    unfold addressInsert
    split
    · simp
    · split
      · rename_i h
        simp [h]
      · simp only [List.mem_cons, ih]
        tauto

theorem addressInsert_wf (l : List Nat) (a : Nat) (ha : a < 2 ^ 32) (h : AddressesWf l) :
    AddressesWf (addressInsert a l) := by
  refine ⟨?_, fun x hx => ?_⟩
  · have hp := h.1
    clear h
    induction l with
    | nil => simp [addressInsert]
    | cons y l ih =>
      obtain ⟨hy, hl⟩ := List.pairwise_cons.mp hp
      unfold addressInsert
      split
      · rename_i hlt
        refine List.pairwise_cons.mpr ⟨fun d hd => ?_, hp⟩
        rcases List.mem_cons.mp hd with rfl | hd
        · exact hlt
        · exact Nat.lt_trans hlt (hy d hd)
      · split
        · exact hp
        · refine List.pairwise_cons.mpr ⟨fun d hd => ?_, ih hl⟩
          rcases (mem_addressInsert l a d).mp hd with rfl | hd
          · omega
          · exact hy d hd
  · rcases (mem_addressInsert l a x).mp hx with rfl | hx
    · exact ha
    · exact h.2 x hx

theorem addressesFilter_wf (l : List Nat) (p : Nat → Bool) (h : AddressesWf l) : AddressesWf (l.filter p) :=
  ⟨h.1.filter _, fun x hx => h.2 x (List.mem_filter.mp hx).1⟩

/-- Every act of the platform keeps both canonical forms. -/
theorem platformAct_wf (act : PlatformAct) (s : State) (hm : Memory.wf s.mem) (hc : AddressesWf s.contested) :
    Memory.wf (platformAct act s).mem ∧ AddressesWf (platformAct act s).contested := by
  cases act with
  | store a b => exact ⟨store_wf _ _ _ a.isLt hm, hc⟩
  | withdraw a => exact ⟨withdraw_wf _ _ hm, hc⟩
  | contest a => exact ⟨hm, addressInsert_wf _ _ a.isLt hc⟩
  | release a => exact ⟨hm, addressesFilter_wf _ _ hc⟩

theorem reset_memory_wf : Memory.wf State.reset.mem ∧ AddressesWf State.reset.contested := by
  decide

/-! ### The read port -/

/-- How many of a log's reads were of contested bytes, each a free value drawn. -/
def contestedIn (s : State) (log : List (Word × Byte)) : Nat := log.countP fun p => decide (p.1.toNat ∈ s.contested)

/-- What reading changes of the state: the records alone. -/
def OnlyReads (s t : State) (log : List (Word × Byte)) : Prop :=
  t = { s with reads := s.reads ++ log, draws := s.draws + contestedIn s log }

theorem OnlyReads.refl (s : State) : OnlyReads s s [] := by
  simp [OnlyReads, contestedIn]

theorem OnlyReads.trans {s t u : State} {l l' : List (Word × Byte)} (h : OnlyReads s t l) (h' : OnlyReads t u l') :
    OnlyReads s u (l ++ l') := by
  unfold OnlyReads at *
  rw [h] at h'
  rw [h']
  simp [contestedIn, List.countP_append, Nat.add_assoc]

/-- A byte in the log that no other agent is changing is the byte the memory holds (R66). -/
def LogFrom (s : State) (log : List (Word × Byte)) : Prop :=
  ∀ p ∈ log, p.1.toNat ∉ s.contested → s.mem.lookup p.1.toNat = some p.2

/-- Everything one answered read can do (R63, R66). -/
theorem readByte_ok {a : Word} {s t : State} {b : Byte} (h : readByte a s = .ok (b, t)) :
    OnlyReads s t [(a, b)] ∧ Answered s a ∧ LogFrom s [(a, b)] := by
  unfold readByte at h
  split at h
  · cases h
  · rename_i hb
    split at h
    all_goals
      rename_i hc
      obtain ⟨rfl, rfl⟩ := Prod.mk.inj (Except.ok.inj h)
      exact ⟨by simp [OnlyReads, contestedIn, hc], by simp [Answered, hb], by simp [LogFrom, hb, hc]⟩

/-- A read fails exactly where the platform does not answer, under that address (R68). -/
theorem readByte_error_iff {a : Word} {s : State} {f : Fault} :
    readByte a s = .error f ↔ f = .readUnanswered a ∧ ¬ Answered s a := by
  unfold readByte Answered
  cases hb : s.mem.lookup a.toNat with
  | none => simpa using eq_comm
  | some b => by_cases hc : a.toNat ∈ s.contested <;> simp [hc]

theorem readByte_answered {a : Word} {s : State} (h : Answered s a) : ∃ b t, readByte a s = .ok (b, t) := by
  cases hr : readByte a s with
  | error f => exact absurd h (readByte_error_iff.mp hr).2
  | ok p => exact ⟨p.1, p.2, rfl⟩

theorem OnlyReads.answered_iff {s t : State} {l : List (Word × Byte)} (h : OnlyReads s t l) (a : Word) :
    Answered t a ↔ Answered s a := by
  rw [h]

theorem OnlyReads.logFrom_iff {s t : State} {l log : List (Word × Byte)} (h : OnlyReads s t l) :
    LogFrom t log ↔ LogFrom s log := by
  rw [h]
  rfl

/-- The addresses of `MemRead(addr, n)`, in order (R63). -/
def readAddresses (a : Word) (n : Nat) : List Word := (List.range n).map fun k => a + BitVec.ofNat 32 k

theorem readAddresses_succ (a : Word) (n : Nat) : readAddresses a (n + 1) = a :: readAddresses (a + 1) n := by
  simp only [readAddresses, List.range_succ_eq_map, List.map_cons, List.map_map]
  refine congrArg₂ _ (by simp) (List.map_congr_left fun k _ => ?_)
  simp only [Function.comp, Nat.succ_eq_add_one]
  rw [show BitVec.ofNat 32 (k + 1) = 1 + BitVec.ofNat 32 k by rw [BitVec.ofNat_add, BitVec.add_comm]; rfl]
  rw [BitVec.add_assoc]

/-- Everything an answered `MemRead` can do (R63): the bytes come from the addresses in order. -/
theorem memRead_ok {n : Nat} {a : Word} {s t : State} {bs : List Byte} (h : memRead n a s = .ok (bs, t)) :
    bs.length = n ∧ OnlyReads s t ((readAddresses a n).zip bs) ∧ (∀ x ∈ readAddresses a n, Answered s x) ∧
      LogFrom s ((readAddresses a n).zip bs) := by
  induction n generalizing a s bs with
  | zero =>
    obtain ⟨rfl, rfl⟩ := Prod.mk.inj (Except.ok.inj h)
    exact ⟨rfl, OnlyReads.refl s, by simp [readAddresses], by simp [LogFrom]⟩
  | succ n ih =>
    unfold memRead at h
    split at h
    · cases h
    · rename_i b s₁ h₁
      split at h
      · cases h
      · rename_i bs' s₂ h₂
        obtain ⟨rfl, rfl⟩ := Prod.mk.inj (Except.ok.inj h)
        obtain ⟨r₁, a₁, l₁⟩ := readByte_ok h₁
        obtain ⟨hl, r₂, a₂, l₂⟩ := ih h₂
        rw [readAddresses_succ]
        refine ⟨by simp [hl], r₁.trans r₂, ?_, ?_⟩
        · intro x hx
          rcases List.mem_cons.mp hx with rfl | hx
          · exact a₁
          · exact (r₁.answered_iff x).mp (a₂ x hx)
        · intro p hp
          rcases List.mem_cons.mp hp with rfl | hp
          · exact l₁ _ (by simp)
          · exact r₁.logFrom_iff.mp l₂ p hp

/-- `MemRead` completes where every byte is answered. -/
theorem memRead_answered {n : Nat} {a : Word} {s : State} (h : ∀ x ∈ readAddresses a n, Answered s x) :
    ∃ bs t, memRead n a s = .ok (bs, t) := by
  induction n generalizing a s with
  | zero => exact ⟨[], s, rfl⟩
  | succ n ih =>
    rw [readAddresses_succ] at h
    obtain ⟨b, s₁, h₁⟩ := readByte_answered (h a (by simp))
    obtain ⟨bs, s₂, h₂⟩ := ih (a := a + 1) (s := s₁) fun x hx =>
      ((readByte_ok h₁).1.answered_iff x).mpr (h x (List.mem_cons_of_mem _ hx))
    exact ⟨b :: bs, s₂, by rw [memRead, h₁]; simp only [h₂]⟩

/-- `MemRead` is held at the first address that is not answered (R68). -/
theorem memRead_error {n : Nat} {a : Word} {s : State} {f : Fault} (h : memRead n a s = .error f) :
    ∃ x before after, f = .readUnanswered x ∧ readAddresses a n = before ++ x :: after ∧
      (∀ y ∈ before, Answered s y) ∧ ¬ Answered s x := by
  induction n generalizing a s with
  | zero => cases h
  | succ n ih =>
    unfold memRead at h
    rw [readAddresses_succ]
    split at h
    · rename_i f' h₁
      obtain rfl := Except.error.inj h
      obtain ⟨rfl, hn⟩ := readByte_error_iff.mp h₁
      exact ⟨a, [], _, rfl, rfl, by simp, hn⟩
    · rename_i b s₁ h₁
      split at h
      · rename_i f' h₂
        obtain rfl := Except.error.inj h
        obtain ⟨r₁, a₁, -⟩ := readByte_ok h₁
        obtain ⟨x, before, after, rfl, hs, hb, hx⟩ := ih h₂
        refine ⟨x, a :: before, after, rfl, by rw [hs]; rfl, fun y hy => ?_, fun hc => hx ((r₁.answered_iff x).mpr hc)⟩
        rcases List.mem_cons.mp hy with rfl | hy
        · exact a₁
        · exact (r₁.answered_iff y).mp (hb y hy)
      · cases h

end Sys2Proof.Machine
end

