-- ==== Sys2Proof/Laws/Array.lean ====
section
/-! SUPPORT. What the element loop of the array commands can do (R72, R190 to R192). -/

namespace Sys2Proof.Machine

/-- The addresses of `k` elements of `n` bytes from element `i` on, in the order of R72. -/
def loopAddresses (n : Nat) (s : State) (i k : Nat) : List Word :=
  (List.range k).flatMap fun j => readAddresses (elemAddr s (i + j)) n

theorem arrayAddresses_eq (n : Nat) (s : State) : arrayAddresses n s = loopAddresses n s 0 s.count.toNat := by
  simp [arrayAddresses, loopAddresses, readAddresses]

theorem loopAddresses_succ (n : Nat) (s : State) (i k : Nat) :
    loopAddresses n s i (k + 1) = readAddresses (elemAddr s i) n ++ loopAddresses n s (i + 1) k := by
  simp only [loopAddresses, List.range_succ_eq_map, List.flatMap_cons, List.flatMap_map, Nat.add_zero]
  refine congrArg _ (congrArg (List.flatMap · _) (funext fun j => ?_))
  simp only [Nat.succ_eq_add_one]
  rw [show i + 1 + j = i + (j + 1) by omega]

theorem OnlyReads.loopAddresses_eq {s t : State} {l : List (Word × Byte)} (h : OnlyReads s t l) (n i k : Nat) :
    loopAddresses n t i k = loopAddresses n s i k := by
  rw [h]
  rfl

@[simp] theorem elementsOf_zero (n : Nat) (be : Bool) (bs : List Byte) : elementsOf n be 0 bs = [] := rfl

theorem elementsOf_succ (n : Nat) (be : Bool) (k : Nat) (b₁ b₂ : List Byte) (h : b₁.length = n) :
    elementsOf n be (k + 1) (b₁ ++ b₂) = assemble be b₁ :: elementsOf n be k b₂ := by
  simp only [elementsOf, List.range_succ_eq_map, List.map_cons, List.map_map]
  refine congrArg₂ _ (by simp [← h]) (List.map_congr_left fun j _ => ?_)
  simp only [Function.comp, Nat.succ_eq_add_one]
  rw [show n * (j + 1) = b₁.length + n * j by rw [h, Nat.mul_succ, Nat.add_comm], List.drop_length_add_append]

/-- Everything a completed element loop can do: the bytes come from the addresses in order, and the masks are those of
adding the elements the bytes make, in order. -/
theorem arrayLoop_ok {n : Nat} {be : Bool} {k i : Nat} {m m' : Masks} {s t : State}
    (h : arrayLoop n be k i m s = .ok (m', t)) :
    ∃ bs, bs.length = n * k ∧ OnlyReads s t ((loopAddresses n s i k).zip bs) ∧
      (∀ x ∈ loopAddresses n s i k, Answered s x) ∧ LogFrom s ((loopAddresses n s i k).zip bs) ∧
      m' = (elementsOf n be k bs).foldl Masks.add m := by
  induction k generalizing i m s with
  | zero =>
    obtain ⟨rfl, rfl⟩ := Prod.mk.inj (Except.ok.inj h)
    exact ⟨[], rfl, OnlyReads.refl s, by simp [loopAddresses], by simp [LogFrom], rfl⟩
  | succ k ih =>
    unfold arrayLoop fetchElem at h
    cases hr : memRead n (elemAddr s i) s with
    | error f => rw [hr] at h; cases h
    | ok p =>
      obtain ⟨b₁, s₁⟩ := p
      rw [hr] at h
      obtain ⟨hl₁, r₁, a₁, l₁⟩ := memRead_ok hr
      obtain ⟨b₂, hl₂, r₂, a₂, l₂, rfl⟩ := ih h
      rw [r₁.loopAddresses_eq] at r₂ a₂ l₂
      have hlen : (readAddresses (elemAddr s i) n).length = b₁.length := by simp [readAddresses, hl₁]
      rw [loopAddresses_succ]
      refine ⟨b₁ ++ b₂, by rw [List.length_append, hl₁, hl₂, Nat.mul_succ, Nat.add_comm], ?_, ?_, ?_, ?_⟩
      · rw [List.zip_append hlen]
        exact r₁.trans r₂
      · intro x hx
        rcases List.mem_append.mp hx with hx | hx
        · exact a₁ x hx
        · exact (r₁.answered_iff x).mp (a₂ x hx)
      · rw [List.zip_append hlen]
        intro p hp
        rcases List.mem_append.mp hp with hp | hp
        · exact l₁ p hp
        · exact r₁.logFrom_iff.mp l₂ p hp
      · rw [elementsOf_succ n be k b₁ b₂ hl₁]
        rfl

/-- The element loop completes where every byte is answered. -/
theorem arrayLoop_answered {n : Nat} {be : Bool} {k i : Nat} {m : Masks} {s : State}
    (h : ∀ x ∈ loopAddresses n s i k, Answered s x) : ∃ m' t, arrayLoop n be k i m s = .ok (m', t) := by
  induction k generalizing i m s with
  | zero => exact ⟨m, s, rfl⟩
  | succ k ih =>
    rw [loopAddresses_succ] at h
    obtain ⟨b₁, s₁, hr⟩ := memRead_answered fun x hx => h x (List.mem_append_left _ hx)
    have r₁ := (memRead_ok hr).2.1
    obtain ⟨m', t, hk⟩ := ih (i := i + 1) (m := m.add (assemble be b₁)) (s := s₁) fun x hx =>
      (r₁.answered_iff x).mpr (h x (List.mem_append_right _ (r₁.loopAddresses_eq n (i + 1) k ▸ hx)))
    exact ⟨m', t, by rw [arrayLoop, fetchElem, hr]; exact hk⟩

/-- The element loop is held at the first address that is not answered (R68). -/
theorem arrayLoop_error {n : Nat} {be : Bool} {k i : Nat} {m : Masks} {s : State} {f : Fault}
    (h : arrayLoop n be k i m s = .error f) :
    ∃ x before after, f = .readUnanswered x ∧ loopAddresses n s i k = before ++ x :: after ∧
      (∀ y ∈ before, Answered s y) ∧ ¬ Answered s x := by
  induction k generalizing i m s with
  | zero => cases h
  | succ k ih =>
    rw [loopAddresses_succ]
    unfold arrayLoop fetchElem at h
    cases hr : memRead n (elemAddr s i) s with
    | error f' =>
      rw [hr] at h
      obtain rfl := Except.error.inj h
      obtain ⟨x, before, after, rfl, hs, hb, hx⟩ := memRead_error hr
      exact ⟨x, before, after ++ loopAddresses n s (i + 1) k, rfl, by rw [hs]; simp, hb, hx⟩
    | ok p =>
      obtain ⟨b₁, s₁⟩ := p
      rw [hr] at h
      obtain ⟨-, r₁, a₁, -⟩ := memRead_ok hr
      obtain ⟨x, before, after, rfl, hs, hb, hx⟩ := ih h
      rw [r₁.loopAddresses_eq] at hs
      refine ⟨x, readAddresses (elemAddr s i) n ++ before, after, rfl, by rw [hs]; simp, fun y hy => ?_,
        fun hc => hx ((r₁.answered_iff x).mpr hc)⟩
      rcases List.mem_append.mp hy with hy | hy
      · exact a₁ y hy
      · exact (r₁.answered_iff y).mp (hb y hy)

end Sys2Proof.Machine
end

