-- ==== Sys2Proof/Laws/Flags.lean ====
section
/-! SUPPORT. The fields of `RESULT` and `VRESULT` (R33, R34), each read back from the word that is built. -/

namespace Sys2Proof.Machine

theorem append_toNat {m n : Nat} (x : BitVec m) (y : BitVec n) : (x ++ y).toNat = x.toNat * 2 ^ n + y.toNat := by
  rw [BitVec.toNat_append, ← Nat.shiftLeft_add_eq_or_of_lt y.isLt, Nat.shiftLeft_eq]

/-- `RESULT` as a number: `OPC`, `CODE` and the hit bits in their places, all else 0 (R33). -/
theorem resultWord_toNat (opc code : BitVec 4) (hits : BitVec 5) :
    (resultWord opc code hits).toNat = opc.toNat * 0x1000 + code.toNat * 0x100 + hits.toNat := by
  simp only [resultWord, append_toNat, BitVec.toNat_ofNat]
  omega

theorem resultWord_hit (opc code : BitVec 4) (hits : BitVec 5) (k : Nat) (hk : k < 5) :
    (resultWord opc code hits).getLsbD k = hits.getLsbD k := by
  rw [resultWord, BitVec.getLsbD_append, if_pos hk]

theorem resultWord_opc (opc code : BitVec 4) (hits : BitVec 5) :
    (resultWord opc code hits).extractLsb' 12 4 = opc := by
  apply BitVec.eq_of_toNat_eq
  have := opc.isLt
  have := code.isLt
  have := hits.isLt
  rw [BitVec.extractLsb'_toNat, resultWord_toNat, Nat.shiftRight_eq_div_pow]
  omega

theorem resultWord_code (opc code : BitVec 4) (hits : BitVec 5) :
    (resultWord opc code hits).extractLsb' 8 4 = code := by
  apply BitVec.eq_of_toNat_eq
  have := opc.isLt
  have := code.isLt
  have := hits.isLt
  rw [BitVec.extractLsb'_toNat, resultWord_toNat, Nat.shiftRight_eq_div_pow]
  omega

theorem resultWord_reserved_low (opc code : BitVec 4) (hits : BitVec 5) :
    (resultWord opc code hits).extractLsb' 5 3 = 0 := by
  apply BitVec.eq_of_toNat_eq
  have := hits.isLt
  rw [BitVec.extractLsb'_toNat, resultWord_toNat, Nat.shiftRight_eq_div_pow]
  change _ = 0
  omega

theorem resultWord_reserved_high (opc code : BitVec 4) (hits : BitVec 5) :
    (resultWord opc code hits).extractLsb' 16 16 = 0 := by
  apply BitVec.eq_of_toNat_eq
  have := opc.isLt
  have := code.isLt
  have := hits.isLt
  rw [BitVec.extractLsb'_toNat, resultWord_toNat, Nat.shiftRight_eq_div_pow]
  change _ = 0
  omega

theorem hitBits_hit (hit l0 l1 l2 tail : Bool) : (hitBits hit l0 l1 l2 tail).getLsbD 0 = hit := by
  revert hit l0 l1 l2 tail; decide

theorem hitBits_l0 (hit l0 l1 l2 tail : Bool) : (hitBits hit l0 l1 l2 tail).getLsbD 1 = l0 := by
  revert hit l0 l1 l2 tail; decide

theorem hitBits_l1 (hit l0 l1 l2 tail : Bool) : (hitBits hit l0 l1 l2 tail).getLsbD 2 = l1 := by
  revert hit l0 l1 l2 tail; decide

theorem hitBits_l2 (hit l0 l1 l2 tail : Bool) : (hitBits hit l0 l1 l2 tail).getLsbD 3 = l2 := by
  revert hit l0 l1 l2 tail; decide

theorem hitBits_tail (hit l0 l1 l2 tail : Bool) : (hitBits hit l0 l1 l2 tail).getLsbD 4 = tail := by
  revert hit l0 l1 l2 tail; decide

theorem refusedHits_query (opc : BitVec 4) (h : opc = 6 ∨ opc = 7) (k : Nat) (hk : k < 5) :
    (refusedHits opc).getLsbD k = true := by
  rw [refusedHits, if_pos h, BitVec.getLsbD_allOnes, decide_eq_true hk]

/-- Lane `i` of a packed byte is bit `i` (R34). -/
theorem packLanes_bit (v : Vector Bool 8) (i : Fin 8) : (packLanes v).getLsbD i.val = v[i] := by
  rw [packLanes]
  generalize h0 : v[0] = b0
  generalize h1 : v[1] = b1
  generalize h2 : v[2] = b2
  generalize h3 : v[3] = b3
  generalize h4 : v[4] = b4
  generalize h5 : v[5] = b5
  generalize h6 : v[6] = b6
  generalize h7 : v[7] = b7
  match i with
  | 0 => exact (by decide +revert : _ = b0).trans h0.symm
  | 1 => exact (by decide +revert : _ = b1).trans h1.symm
  | 2 => exact (by decide +revert : _ = b2).trans h2.symm
  | 3 => exact (by decide +revert : _ = b3).trans h3.symm
  | 4 => exact (by decide +revert : _ = b4).trans h4.symm
  | 5 => exact (by decide +revert : _ = b5).trans h5.symm
  | 6 => exact (by decide +revert : _ = b6).trans h6.symm
  | 7 => exact (by decide +revert : _ = b7).trans h7.symm

theorem vresultWord_lane (hit l0 l1 l2 : Vector Bool 8) (i : Fin 8) :
    (vresultWord hit l0 l1 l2).getLsbD i.val = hit[i] := by
  rw [vresultWord, BitVec.getLsbD_append, if_pos i.isLt, packLanes_bit]

theorem vresultWord_l0 (hit l0 l1 l2 : Vector Bool 8) (i : Fin 8) :
    (vresultWord hit l0 l1 l2).getLsbD (8 + i.val) = l0[i] := by
  rw [vresultWord, BitVec.getLsbD_append, if_neg (by omega), BitVec.getLsbD_append, if_pos (by omega),
    show 8 + i.val - 8 = i.val by omega, packLanes_bit]

theorem vresultWord_l1 (hit l0 l1 l2 : Vector Bool 8) (i : Fin 8) :
    (vresultWord hit l0 l1 l2).getLsbD (16 + i.val) = l1[i] := by
  rw [vresultWord, BitVec.getLsbD_append, if_neg (by omega), BitVec.getLsbD_append, if_neg (by omega),
    BitVec.getLsbD_append, if_pos (by omega), show 16 + i.val - 8 - 8 = i.val by omega, packLanes_bit]

theorem vresultWord_l2 (hit l0 l1 l2 : Vector Bool 8) (i : Fin 8) :
    (vresultWord hit l0 l1 l2).getLsbD (24 + i.val) = l2[i] := by
  rw [vresultWord, BitVec.getLsbD_append, if_neg (by omega), BitVec.getLsbD_append, if_neg (by omega),
    BitVec.getLsbD_append, if_neg (by omega), show 24 + i.val - 8 - 8 - 8 = i.val by omega, packLanes_bit]

/-- The OR over lanes (R130). -/
theorem anyLane_iff (v : Vector Bool 8) : anyLane v = true ↔ ∃ i : Fin 8, v[i] = true := by
  rw [anyLane, List.any_eq_true]
  constructor
  · rintro ⟨x, hx, hb⟩
    obtain ⟨i, hi, rfl⟩ := Vector.mem_iff_getElem.mp (Vector.mem_toList_iff.mp hx)
    exact ⟨⟨i, hi⟩, hb⟩
  · rintro ⟨i, hi⟩
    exact ⟨v[i], Vector.mem_toList_iff.mpr (Vector.getElem_mem i.isLt), hi⟩

end Sys2Proof.Machine
end

