-- ==== Sys2Proof/Laws/PerInstr.lean ====
section
/-! SUPPORT. The statement made per command, one lemma per constructor of `Instr`. -/

namespace Sys2Proof.Laws.EncodedLegal

/-- The word of a command is legal by R96. -/
def Statement (i : Instr) : Prop := LegalWord (encode i)

theorem init : Statement .init := by
  unfold Statement
  decide

theorem add : Statement .add := by
  unfold Statement
  decide

theorem addRange : Statement .addRange := by
  unfold Statement
  decide

theorem addArrayB (be : Bool) : Statement (.addArrayB be) := by
  unfold Statement
  cases be <;> decide

theorem addArrayH (be : Bool) : Statement (.addArrayH be) := by
  unfold Statement
  cases be <;> decide

theorem addArrayW (be : Bool) : Statement (.addArrayW be) := by
  unfold Statement
  cases be <;> decide

theorem addSortedArrayB (be : Bool) : Statement (.addSortedArrayB be) := by
  unfold Statement
  cases be <;> decide

theorem addSortedArrayH (be : Bool) : Statement (.addSortedArrayH be) := by
  unfold Statement
  cases be <;> decide

theorem addSortedArrayW (be : Bool) : Statement (.addSortedArrayW be) := by
  unfold Statement
  cases be <;> decide

theorem query : Statement .query := by
  unfold Statement
  decide

theorem vquery : Statement .vquery := by
  unfold Statement
  decide

end Sys2Proof.Laws.EncodedLegal
end

