-- ==== Sys2Proof/Laws/Query.lean ====
section
/-! SUPPORT. The bits a batch query reports (R155, R211), each in terms of the leaves' answers for its lane. -/

namespace Sys2Proof.Machine

theorem mapLanes_get {α β : Type} (f : α → β) (v : Vector α 8) (i : Fin 8) : (mapLanes f v)[i] = f v[i] := by
  match i with
  | 0 | 1 | 2 | 3 | 4 | 5 | 6 | 7 => rfl

theorem andLanes_get (v w : Vector Bool 8) (i : Fin 8) : (andLanes v w)[i] = (v[i] && w[i]) := by
  match i with
  | 0 | 1 | 2 | 3 | 4 | 5 | 6 | 7 => rfl

/-- `VRESULT` lane by lane. -/
theorem batchQuery_lane (m : Masks) (cs : Vector Word 8) (i : Fin 8) :
    (batchQuery m cs).1.getLsbD i.val = m.mayHave cs[i] ∧ (batchQuery m cs).1.getLsbD (8 + i.val) = m.has0 cs[i] ∧
      (batchQuery m cs).1.getLsbD (16 + i.val) = m.has1 cs[i] ∧
      (batchQuery m cs).1.getLsbD (24 + i.val) = m.has2 cs[i] := by
  simp only [batchQuery, vresultWord_lane, vresultWord_l0, vresultWord_l1, vresultWord_l2, mapLanes_get, and_self]

/-- The hit bits of `RESULT` after a batch query: each the OR over lanes. -/
theorem batchQuery_any (m : Masks) (cs : Vector Word 8) :
    ((resultWord 7 0 (batchQuery m cs).2).getLsbD 0 = true ↔ ∃ i : Fin 8, m.mayHave cs[i] = true) ∧
      ((resultWord 7 0 (batchQuery m cs).2).getLsbD 1 = true ↔ ∃ i : Fin 8, m.has0 cs[i] = true) ∧
      ((resultWord 7 0 (batchQuery m cs).2).getLsbD 2 = true ↔ ∃ i : Fin 8, m.has1 cs[i] = true) ∧
      ((resultWord 7 0 (batchQuery m cs).2).getLsbD 3 = true ↔ ∃ i : Fin 8, m.has2 cs[i] = true) ∧
      ((resultWord 7 0 (batchQuery m cs).2).getLsbD 4 = true ↔ ∃ i : Fin 8, m.hasTail cs[i] = true) := by
  refine ⟨?_, ?_, ?_, ?_, ?_⟩ <;> rw [resultWord_hit _ _ _ _ (by decide)] <;>
    simp only [batchQuery, batchHits, hitBits_hit, hitBits_l0, hitBits_l1, hitBits_l2, hitBits_tail, anyLane_iff,
      mapLanes_get]

end Sys2Proof.Machine
end

