-- ==== Sys2Proof/Laws/State.lean ====
section
/-! SUPPORT. One lemma per field for each shared update of the state: `report` (R267), `State.mutated` (R33),
`State.afterReset` (R290) and `State.withFetchWord`. -/

namespace Sys2Proof.Machine

section
variable (e : CmdError) (opc : BitVec 4) (s : State)

@[simp] theorem report_filter : (report e opc s).filter = s.filter := rfl

@[simp] theorem report_opa : (report e opc s).opa = s.opa := rfl

@[simp] theorem report_opb : (report e opc s).opb = s.opb := rfl

@[simp] theorem report_addr : (report e opc s).addr = s.addr := rfl

@[simp] theorem report_count : (report e opc s).count = s.count := rfl

@[simp] theorem report_stride : (report e opc s).stride = s.stride := rfl

@[simp] theorem report_lanes : (report e opc s).lanes = s.lanes := rfl

@[simp] theorem report_vecEn : (report e opc s).vecEn = s.vecEn := rfl

@[simp] theorem report_err : (report e opc s).err = s.err ||| e.errBit := rfl

@[simp] theorem report_result : (report e opc s).result = resultWord opc e.code (refusedHits opc) := rfl

@[simp] theorem report_vresult : (report e opc s).vresult = if opc = 7 then BitVec.allOnes 32 else s.vresult := rfl

@[simp] theorem report_mem : (report e opc s).mem = s.mem := rfl

@[simp] theorem report_contested : (report e opc s).contested = s.contested := rfl

@[simp] theorem report_port : (report e opc s).port = s.port := rfl

@[simp] theorem report_answer : (report e opc s).answer = s.answer := rfl

@[simp] theorem report_reads : (report e opc s).reads = s.reads := rfl

@[simp] theorem report_draws : (report e opc s).draws = s.draws := rfl

end

section
variable (s : State) (opc : BitVec 4) (m : Masks)

@[simp] theorem mutated_filter : (s.mutated opc m).filter = some m := rfl

@[simp] theorem mutated_opa : (s.mutated opc m).opa = s.opa := rfl

@[simp] theorem mutated_opb : (s.mutated opc m).opb = s.opb := rfl

@[simp] theorem mutated_addr : (s.mutated opc m).addr = s.addr := rfl

@[simp] theorem mutated_count : (s.mutated opc m).count = s.count := rfl

@[simp] theorem mutated_stride : (s.mutated opc m).stride = s.stride := rfl

@[simp] theorem mutated_lanes : (s.mutated opc m).lanes = s.lanes := rfl

@[simp] theorem mutated_vecEn : (s.mutated opc m).vecEn = s.vecEn := rfl

@[simp] theorem mutated_err : (s.mutated opc m).err = s.err := rfl

@[simp] theorem mutated_result : (s.mutated opc m).result = doneWord opc := rfl

@[simp] theorem mutated_vresult : (s.mutated opc m).vresult = s.vresult := rfl

@[simp] theorem mutated_mem : (s.mutated opc m).mem = s.mem := rfl

@[simp] theorem mutated_contested : (s.mutated opc m).contested = s.contested := rfl

@[simp] theorem mutated_port : (s.mutated opc m).port = s.port := rfl

@[simp] theorem mutated_answer : (s.mutated opc m).answer = s.answer := rfl

@[simp] theorem mutated_reads : (s.mutated opc m).reads = s.reads := rfl

@[simp] theorem mutated_draws : (s.mutated opc m).draws = s.draws := rfl

end

section
variable (s : State)

@[simp] theorem afterReset_filter : (s.afterReset).filter = State.reset.filter := rfl

@[simp] theorem afterReset_opa : (s.afterReset).opa = State.reset.opa := rfl

@[simp] theorem afterReset_opb : (s.afterReset).opb = State.reset.opb := rfl

@[simp] theorem afterReset_addr : (s.afterReset).addr = State.reset.addr := rfl

@[simp] theorem afterReset_count : (s.afterReset).count = State.reset.count := rfl

@[simp] theorem afterReset_stride : (s.afterReset).stride = State.reset.stride := rfl

@[simp] theorem afterReset_lanes : (s.afterReset).lanes = State.reset.lanes := rfl

@[simp] theorem afterReset_vecEn : (s.afterReset).vecEn = State.reset.vecEn := rfl

@[simp] theorem afterReset_err : (s.afterReset).err = State.reset.err := rfl

@[simp] theorem afterReset_result : (s.afterReset).result = State.reset.result := rfl

@[simp] theorem afterReset_vresult : (s.afterReset).vresult = State.reset.vresult := rfl

@[simp] theorem afterReset_mem : (s.afterReset).mem = s.mem := rfl

@[simp] theorem afterReset_contested : (s.afterReset).contested = s.contested := rfl

@[simp] theorem afterReset_port : (s.afterReset).port = s.port := rfl

@[simp] theorem afterReset_answer : (s.afterReset).answer = State.reset.answer := rfl

@[simp] theorem afterReset_reads : (s.afterReset).reads = s.reads := rfl

@[simp] theorem afterReset_draws : (s.afterReset).draws = s.draws := rfl

end

section
variable (s : State) (nbits w : Nat)

@[simp] theorem withFetchWord_filter : (s.withFetchWord nbits w).filter = s.filter := rfl

@[simp] theorem withFetchWord_opa : (s.withFetchWord nbits w).opa = s.opa := rfl

@[simp] theorem withFetchWord_opb : (s.withFetchWord nbits w).opb = s.opb := rfl

@[simp] theorem withFetchWord_addr : (s.withFetchWord nbits w).addr = s.addr := rfl

@[simp] theorem withFetchWord_count : (s.withFetchWord nbits w).count = s.count := rfl

@[simp] theorem withFetchWord_stride : (s.withFetchWord nbits w).stride = s.stride := rfl

@[simp] theorem withFetchWord_lanes : (s.withFetchWord nbits w).lanes = s.lanes := rfl

@[simp] theorem withFetchWord_vecEn : (s.withFetchWord nbits w).vecEn = s.vecEn := rfl

@[simp] theorem withFetchWord_err : (s.withFetchWord nbits w).err = s.err := rfl

@[simp] theorem withFetchWord_result : (s.withFetchWord nbits w).result = s.result := rfl

@[simp] theorem withFetchWord_vresult : (s.withFetchWord nbits w).vresult = s.vresult := rfl

@[simp] theorem withFetchWord_mem : (s.withFetchWord nbits w).mem = s.mem := rfl

@[simp] theorem withFetchWord_contested : (s.withFetchWord nbits w).contested = s.contested := rfl

@[simp] theorem withFetchWord_port : (s.withFetchWord nbits w).port = writeCommand (BitVec.ofNat 32 (w % 2 ^ nbits)) :: s.port := rfl

@[simp] theorem withFetchWord_answer : (s.withFetchWord nbits w).answer = s.answer := rfl

@[simp] theorem withFetchWord_reads : (s.withFetchWord nbits w).reads = s.reads := rfl

@[simp] theorem withFetchWord_draws : (s.withFetchWord nbits w).draws = s.draws := rfl

end

/-- `INITED` is 1 exactly when the masks hold a value (R22). -/
theorem inited_iff (s : State) : s.inited = true ↔ ∃ m, s.filter = some m := Option.isSome_iff_exists

theorem not_inited_iff (s : State) : s.inited = false ↔ s.filter = none := by
  simp [State.inited]

@[simp] theorem report_inited (e : CmdError) (opc : BitVec 4) (s : State) : (report e opc s).inited = s.inited := rfl

@[simp] theorem mutated_inited (s : State) (opc : BitVec 4) (m : Masks) : (s.mutated opc m).inited = true := rfl

@[simp] theorem afterReset_inited (s : State) : s.afterReset.inited = false := rfl

end Sys2Proof.Machine
end

