-- ==== Sys2Proof/Laws/Step.lean ====
section
/-! SUPPORT. What a step and a command can do, said once: the inversion lemmas of the shared operations (R41). -/

namespace Sys2Proof.Machine

/-- The prologue on masks that hold a value (R98). -/
theorem whenInited_some {opc : BitVec 4} {s : State} {m : Masks} (h : s.filter = some m)
    (run : Masks → Host.Outcome State Fault Refusal) : whenInited opc s run = run m := by
  simp [whenInited, h]

/-- The prologue while `INITED = 0` (R98). -/
theorem whenInited_none {opc : BitVec 4} {s : State} (h : s.filter = none)
    (run : Masks → Host.Outcome State Fault Refusal) : whenInited opc s run = .next (report .uninit opc s) := by
  simp [whenInited, h]

/-- The prologue's two outcomes: the report of `E_UNINIT`, or the command on the masks. -/
theorem whenInited_cases {opc : BitVec 4} {s : State} {run : Masks → Host.Outcome State Fault Refusal}
    {o : Host.Outcome State Fault Refusal} (h : whenInited opc s run = o) :
    (s.filter = none ∧ o = .next (report .uninit opc s)) ∨ ∃ m, s.filter = some m ∧ run m = o := by
  cases hf : s.filter with
  | none => exact .inl ⟨rfl, by rw [← h, whenInited_none hf]⟩
  | some m => exact .inr ⟨m, rfl, by rw [← h, whenInited_some hf]⟩

theorem fetchElem_ok {n : Nat} {be : Bool} {ea c : Word} {s t : State} (h : fetchElem n be ea s = .ok (c, t)) :
    ∃ bs, memRead n ea s = .ok (bs, t) ∧ c = assemble be bs := by
  unfold fetchElem at h
  split at h
  · cases h
  · rename_i bs s' hr
    obtain ⟨rfl, rfl⟩ := Prod.mk.inj (Except.ok.inj h)
    exact ⟨bs, hr, rfl⟩

/-- Everything an array command that completes can do: the report of `E_UNINIT`, or the reads of its loop, the masks of
its elements and `RESULT` (R190, R193). -/
theorem addElements_next {opc : BitVec 4} {n : Nat} {be : Bool} {s t : State} (h : addElements opc n be s = .next t) :
    (s.filter = none ∧ t = report .uninit opc s) ∨
    ∃ m bs u, s.filter = some m ∧ bs.length = n * s.count.toNat ∧ OnlyReads s u ((arrayAddresses n s).zip bs) ∧
      (∀ x ∈ arrayAddresses n s, Answered s x) ∧ LogFrom s ((arrayAddresses n s).zip bs) ∧
      t = u.mutated opc ((elementsOf n be s.count.toNat bs).foldl Masks.add m) := by
  rcases whenInited_cases h with ⟨hf, ho⟩ | ⟨m, hf, ho⟩
  · exact .inl ⟨hf, Host.Outcome.next.inj ho⟩
  · split at ho
    · cases ho
    · rename_i m' u hl
      obtain ⟨bs, h₁, h₂, h₃, h₄, rfl⟩ := arrayLoop_ok hl
      rw [← arrayAddresses_eq] at h₂ h₃ h₄
      exact .inr ⟨m, bs, u, hf, h₁, h₂, h₃, h₄, (Host.Outcome.next.inj ho).symm⟩

/-- An array command stops only where its loop is held (R68). -/
theorem addElements_fault {opc : BitVec 4} {n : Nat} {be : Bool} {s : State} {f : Fault}
    (h : addElements opc n be s = .fault f) :
    ∃ x before after, f = .readUnanswered x ∧ arrayAddresses n s = before ++ x :: after ∧
      (∀ y ∈ before, Answered s y) ∧ ¬ Answered s x := by
  rcases whenInited_cases h with ⟨-, ho⟩ | ⟨m, -, ho⟩
  · cases ho
  · split at ho
    · rename_i f' hl
      obtain rfl := Host.Outcome.fault.inj ho
      rw [arrayAddresses_eq]
      exact arrayLoop_error hl
    · cases ho

/-- An array command completes where every byte it reads is answered. -/
theorem addElements_answered {opc : BitVec 4} {n : Nat} {be : Bool} {s : State} (h : BufferAnswered n s) :
    ∃ t, addElements opc n be s = .next t := by
  unfold addElements
  cases hf : s.filter with
  | none => exact ⟨_, whenInited_none hf _⟩
  | some m =>
    obtain ⟨m', t, hl⟩ := arrayLoop_answered (n := n) (be := be) (k := s.count.toNat) (i := 0) (m := m) (s := s)
      (arrayAddresses_eq n s ▸ h)
    exact ⟨_, by rw [whenInited_some hf, hl]⟩

/-- An array command is `addElements` of its opcode, element size and byte order (R190, R193). -/
theorem exec_array {i : Instr} {n : Nat} {be : Bool} (h : arrayShape i = some (n, be)) (s : State) :
    exec i s = addElements (opcField (encode i)) n be s := by
  cases i <;> simp only [arrayShape, Option.some.injEq, Prod.mk.injEq, reduceCtorEq] at h <;>
    obtain ⟨rfl, rfl⟩ := h <;> rename_i be <;> cases be <;> rfl

/-- Everything a command that completes can do to a state (R41). -/
inductive CommandEffect (s : State) : Instr → State → Prop where
  /-- Refused with `E_UNINIT` (R98). -/
  | uninit {i : Instr} (hf : s.filter = none) (hi : i ≠ .init) :
      CommandEffect s i (report .uninit (opcField (encode i)) s)
  /-- Refused with `E_RANGE` (R172). -/
  | range {m : Masks} (hf : s.filter = some m) (hlt : s.opb < s.opa) : CommandEffect s .addRange (report .range 3 s)
  /-- INIT (R170). -/
  | init : CommandEffect s .init (s.mutated 1 Masks.cleared)
  /-- ADD (R171). -/
  | add {m : Masks} (hf : s.filter = some m) : CommandEffect s .add (s.mutated 2 (m.add s.opa))
  /-- ADD_RANGE of an ordered range (R172). -/
  | addRange {m : Masks} (hf : s.filter = some m) (hle : s.opa ≤ s.opb) :
      CommandEffect s .addRange (s.mutated 3 (m.addRange s.opa s.opb))
  /-- An array command whose reads are all answered (R190, R193). -/
  | array {i : Instr} {m : Masks} {n : Nat} {be : Bool} {bs : List Byte} {u : State} (hf : s.filter = some m)
      (hi : arrayShape i = some (n, be)) (hl : bs.length = n * s.count.toNat)
      (hr : OnlyReads s u ((arrayAddresses n s).zip bs)) (ha : ∀ x ∈ arrayAddresses n s, Answered s x)
      (hb : LogFrom s ((arrayAddresses n s).zip bs)) :
      CommandEffect s i
        (u.mutated (opcField (encode i)) ((elementsOf n be s.count.toNat bs).foldl Masks.add m))
  /-- QUERY (R210). -/
  | query {m : Masks} (hf : s.filter = some m) :
      CommandEffect s .query { s with result := resultWord 6 0 (queryHits m s.opa) }
  /-- VQUERY (R211). -/
  | vquery {m : Masks} (hf : s.filter = some m) :
      CommandEffect s .vquery { s with
        vresult := (batchQuery m s.lanes).1, result := resultWord 7 0 (batchQuery m s.lanes).2 }

/-- A completed array command has the array effect. -/
theorem exec_array_next {i : Instr} {n : Nat} {be : Bool} {s t : State} (hi : arrayShape i = some (n, be))
    (h : exec i s = .next t) : CommandEffect s i t := by
  rw [exec_array hi] at h
  rcases addElements_next h with ⟨hf, rfl⟩ | ⟨m, bs, u, hf, h₁, h₂, h₃, h₄, rfl⟩
  · exact .uninit hf (by rintro rfl; cases hi)
  · exact .array hf hi h₁ h₂ h₃ h₄

/-- A command that completes has one of the effects of `CommandEffect`. -/
theorem exec_next {i : Instr} {s t : State} (h : exec i s = .next t) : CommandEffect s i t := by
  cases i with
  | init =>
    obtain rfl := Host.Outcome.next.inj h
    exact .init
  | add =>
    rcases whenInited_cases h with ⟨hf, ho⟩ | ⟨m, hf, ho⟩
    · obtain rfl := Host.Outcome.next.inj ho
      exact .uninit hf (by simp)
    · obtain rfl := Host.Outcome.next.inj ho
      exact .add hf
  | addRange =>
    rcases whenInited_cases h with ⟨hf, ho⟩ | ⟨m, hf, ho⟩
    · obtain rfl := Host.Outcome.next.inj ho
      exact .uninit hf (by simp)
    · split at ho
      · rename_i hlt
        obtain rfl := Host.Outcome.next.inj ho
        exact .range hf hlt
      · rename_i hlt
        obtain rfl := Host.Outcome.next.inj ho
        exact .addRange hf (BitVec.not_lt.mp hlt)
  | addArrayB be => exact exec_array_next rfl h
  | addArrayH be => exact exec_array_next rfl h
  | addArrayW be => exact exec_array_next rfl h
  | addSortedArrayB be => exact exec_array_next rfl h
  | addSortedArrayH be => exact exec_array_next rfl h
  | addSortedArrayW be => exact exec_array_next rfl h
  | query =>
    rcases whenInited_cases h with ⟨hf, ho⟩ | ⟨m, hf, ho⟩
    · obtain rfl := Host.Outcome.next.inj ho
      exact .uninit hf (by simp)
    · obtain rfl := Host.Outcome.next.inj ho
      exact .query hf
  | vquery =>
    rcases whenInited_cases h with ⟨hf, ho⟩ | ⟨m, hf, ho⟩
    · obtain rfl := Host.Outcome.next.inj ho
      exact .uninit hf (by simp)
    · obtain rfl := Host.Outcome.next.inj ho
      exact .vquery hf

theorem OnlyReads.frame {s t : State} {l : List (Word × Byte)} (h : OnlyReads s t l) : CommandFrame s t := by
  rw [h]
  exact ⟨⟨rfl, rfl, rfl, rfl, rfl, rfl, rfl⟩, ⟨fun _ => rfl, rfl⟩, rfl, rfl⟩

/-- Whatever a command does, it stays within the frame of R41. -/
theorem CommandEffect.frame {i : Instr} {s t : State} (h : CommandEffect s i t) : CommandFrame s t := by
  cases h with
  | array hf hi hl hr ha hb => exact hr.frame
  | _ => exact ⟨⟨rfl, rfl, rfl, rfl, rfl, rfl, rfl⟩, ⟨fun _ => rfl, rfl⟩, rfl, rfl⟩

/-- A read transaction writes no register (R231, R41): only the answer and the draw counter can differ. -/
theorem portRead_only (idx : BitVec 5) (s : State) :
    portRead idx s = { s with answer := (portRead idx s).answer, draws := (portRead idx s).draws } := by
  unfold portRead
  split
  · rfl
  · split <;> rfl

/-- Everything a write transaction that completes can do (R233): the launch of the command in the data, a bus error, or
the store of one register. -/
theorem portWrite_next {idx : BitVec 5} {data : Word} {s t : State} (h : portWrite idx data s = .next t) :
    (regAt idx = some .cmd ∧ launch data { s with answer := some .writeOk } = .next t) ∨
    (t = { s with answer := some .writeError }) ∨
    (∃ v, t = { s with answer := some .writeOk, vecEn := v } ∧ v = vecEnAfterWrite Config.hasVec s.vecEn data) ∨
    (t = { s with answer := some .writeOk, err := errAfterWrite s.err data }) ∨
    (∃ a b c d e l, t = { s with
      answer := some .writeOk, opa := a, opb := b, addr := c, count := d, stride := e, lanes := l }) := by
  unfold portWrite at h
  split at h
  case h_1 hr => exact .inl ⟨hr, h⟩
  case h_2 => exact .inr (.inr (.inl ⟨_, (Host.Outcome.next.inj h).symm, rfl⟩))
  case h_3 => exact .inr (.inr (.inr (.inl (Host.Outcome.next.inj h).symm)))
  case h_4 => exact .inr (.inr (.inr (.inr ⟨_, _, _, _, _, _, (Host.Outcome.next.inj h).symm⟩)))
  case h_5 => exact .inr (.inr (.inr (.inr ⟨_, _, _, _, _, _, (Host.Outcome.next.inj h).symm⟩)))
  case h_6 => exact .inr (.inr (.inr (.inr ⟨_, _, _, _, _, _, (Host.Outcome.next.inj h).symm⟩)))
  case h_7 => exact .inr (.inr (.inr (.inr ⟨_, _, _, _, _, _, (Host.Outcome.next.inj h).symm⟩)))
  case h_8 => exact .inr (.inr (.inr (.inr ⟨_, _, _, _, _, _, (Host.Outcome.next.inj h).symm⟩)))
  case h_9 => exact .inr (.inr (.inr (.inr ⟨_, _, _, _, _, _, (Host.Outcome.next.inj h).symm⟩)))
  all_goals exact .inr (.inl (Host.Outcome.next.inj h).symm)

/-- Everything a launch that completes can do (R98, R234). -/
theorem launch_next {w : Word} {s t : State} (h : launch w s = .next t) :
    ((∃ e, decode w = .error e) ∧ t = report .badcmd (opcField w) s) ∨ ∃ i, decode w = .ok i ∧ exec i s = .next t := by
  unfold launch at h
  split at h
  · rename_i e he
    exact .inl ⟨⟨e, he⟩, (Host.Outcome.next.inj h).symm⟩
  · rename_i i hi
    exact .inr ⟨i, hi, h⟩

theorem step_nil {s : State} (h : s.port = []) : step s = .next s := by
  simp [step, takeNext, h]

theorem step_cons {s : State} {e : HostEvent} {rest : List HostEvent} (h : s.port = e :: rest) :
    step s = takeEvent e { s with port := rest } := by
  simp [step, takeNext, h]

/-- The register map covers exactly what the table of R27 lists: the index of `CMD` is 4. -/
theorem regAt_cmd (idx : BitVec 5) : regAt idx = some .cmd ↔ idx = 4 := by
  revert idx
  decide

/-- A register's word index is the one the map of R27 gives it. -/
theorem regAt_eq {idx : BitVec 5} {r : Reg} (h : regAt idx = some r) : idx = Reg.index r := by
  have key : ∀ i : BitVec 5, (regAt i).all (fun r => decide (i = Reg.index r)) = true := by decide
  simpa [h] using key idx

/-- A write of `CMD` answers `reg_err = 0` and launches the word (R234). -/
theorem portWrite_cmd (w : Word) (s : State) : portWrite 4 w s = launch w { s with answer := some .writeOk } := rfl

/-- A step whose next input writes `CMD` launches the word (R232, R234). -/
theorem step_cmd {s : State} {w : Word} {rest : List HostEvent} (h : s.port = .wr 4 w :: rest) :
    step s = launch w { s with port := rest, answer := some .writeOk } := by
  rw [step_cons h]
  rfl

/-- Every step takes the next pending input, whole, and no other. -/
theorem step_port {s t : State} (h : step s = .next t) : t.port = s.port.tail := by
  cases hp : s.port with
  | nil =>
    rw [step_nil hp] at h
    obtain rfl := Host.Outcome.next.inj h
    exact hp
  | cons e rest =>
    rw [step_cons hp] at h
    cases e with
    | rd idx =>
      obtain rfl := Host.Outcome.next.inj h
      rw [portRead_only]
      rfl
    | rst =>
      obtain rfl := Host.Outcome.next.inj h
      rfl
    | platform act =>
      obtain rfl := Host.Outcome.next.inj h
      cases act <;> rfl
    | wr idx data =>
      rcases portWrite_next h with ⟨-, hl⟩ | rfl | ⟨v, rfl, -⟩ | rfl | ⟨a, b, c, d, e, l, rfl⟩
      · rcases launch_next hl with ⟨-, rfl⟩ | ⟨i, -, he⟩
        · rfl
        · exact (exec_next he).frame.2.2.1
      all_goals rfl

/-- A run goes on from the state its first step answers. -/
theorem run_next {s t : State} (h : step s = .next t) (k : Nat) : core.run (k + 1) s = core.run k t := by
  have h' : core.step s = .next t := h
  have hr := Host.Core.run.eq_2 core s k
  rw [hr, h']

/-- A run that completes takes a completing first step. -/
theorem run_succ {s u : State} {k : Nat} (h : core.run (k + 1) s = .next u) :
    ∃ t, step s = .next t ∧ core.run k t = .next u := by
  have hr := Host.Core.run.eq_2 core s k
  rw [hr] at h
  cases hs : core.step s with
  | next t =>
    rw [hs] at h
    exact ⟨t, hs, h⟩
  | fault r =>
    rw [hs] at h
    cases h
  | refused r =>
    rw [hs] at h
    cases h

/-- `regAt` inverts `Reg.index` on every register (R27). -/
theorem regAt_index (r : Reg) : regAt (Reg.index r) = some r := by
  cases r <;> first | rfl | (rename_i i; revert i; decide)

end Sys2Proof.Machine
end

