-- ==== Sys2Proof/Tests/Slice0.lean ====
section
/-! SUPPORT. The model's own tests. Expected results come from spec/95 (worked examples and vectors, named in each
comment) or by hand from the encodings of R91 and R93. After them, one witness for every hypothesis of a statement. -/

namespace Sys2Proof.Tests

open Machine

/-! ### Helpers -/

/-- The reset state of a block without lane datapath, every field a literal. -/
def blank : State := { State.reset with vecEn := false }

/-- After reset and INIT, with these masks. -/
def started (m : Masks) : State := { blank with filter := some m }

/-- The masks after `add 1000` (V-A1). -/
def sample : Masks := ⟨0x40000000, 0x00000100, 0x00000002⟩

/-- One pending input. -/
def pending (e : HostEvent) (s : State) : State := { s with port := [e] }

/-- Memory image A of section 3.4. -/
def imageA : Memory :=
  [(0x1000, 0x03), (0x1001, 0xE8), (0x1002, 0x00), (0x1003, 0x05), (0x1004, 0x00), (0x1005, 0x25)]

/-- Empty masks and image A, with the operands of an array command. -/
def buffer (addr count stride : Word) : State :=
  { started ⟨0, 0, 0⟩ with mem := imageA, addr := addr, count := count, stride := stride }

/-- A field of the next state, if there is one. -/
def after {α : Type} (f : State → α) (o : Host.Outcome State Fault Refusal) : Option α :=
  match o with
  | .next s => some (f s)
  | .fault _ => none
  | .refused _ => none

/-- The masks and `RESULT` of a state. -/
def shown (s : State) : Option Masks × Word := (s.filter, s.result)

/-- The word is none of a command. -/
theorem not_ok {w : Word} {e : DecodeError} (h : decode w = .error e) (i : Instr) : decode w ≠ .ok i := by
  rw [h]
  simp

/-- Every address of a list is answered, checked one by one. -/
theorem all_answered {s : State} {l : List Word} (h : (l.all fun a => decide (Answered s a)) = true) :
    ∀ a ∈ l, Answered s a :=
  fun a ha => of_decide_eq_true (List.all_eq_true.mp h a ha)

/-! ### WellFormed: each check refuses an ill-formed term (R7, R96) -/

theorem test_wellformed_leaf : Leaf.make 32 28 = none ∧ Leaf.make 16 29 = none ∧ Leaf.make 64 27 = none ∧
    Leaf.make 128 26 = none ∧ Leaf.make 8 0 = none ∧ (Leaf.make 32 27).isSome = true := by decide

theorem test_wellformed_zero_field : ¬ ZeroFieldClear 0x00000081 ∧ ZeroFieldClear 0x00000064 := by decide

theorem test_wellformed_opc : ¬ OpcDefined 0x00000000 ∧ ¬ OpcDefined 0x00000008 ∧ OpcDefined 0x00000007 := by decide

theorem test_wellformed_fields : ¬ FieldsAllowed 0x00000034 ∧ ¬ FieldsAllowed 0x00000046 ∧ FieldsAllowed 0x00000065 := by
  decide

theorem test_wellformed_word : ¬ LegalWord 0x00000013 ∧ LegalWord 0x00000003 := by decide

/-! ### Decoding: words written out from R91 and R93 -/

theorem test_decode_plain : decode 0b0000001 = .ok .init ∧ decode 0b0000010 = .ok .add ∧
    decode 0b0000011 = .ok .addRange ∧ decode 0b0000110 = .ok .query ∧ decode 0b0000111 = .ok .vquery := by decide

theorem test_decode_array : decode 0b0_00_0100 = .ok (.addArrayB false) ∧ decode 0b1_00_0100 = .ok (.addArrayB true) ∧
    decode 0b0_01_0100 = .ok (.addArrayH false) ∧ decode 0b1_01_0100 = .ok (.addArrayH true) ∧
    decode 0b0_10_0100 = .ok (.addArrayW false) ∧ decode 0b1_10_0100 = .ok (.addArrayW true) := by decide

theorem test_decode_sorted : decode 0b0_00_0101 = .ok (.addSortedArrayB false) ∧
    decode 0b1_00_0101 = .ok (.addSortedArrayB true) ∧ decode 0b0_01_0101 = .ok (.addSortedArrayH false) ∧
    decode 0b1_01_0101 = .ok (.addSortedArrayH true) ∧ decode 0b0_10_0101 = .ok (.addSortedArrayW false) ∧
    decode 0b1_10_0101 = .ok (.addSortedArrayW true) := by decide

/-- V-E6, V-E8: reserved words. -/
theorem test_decode_reserved : decode 0x08 = .error .reservedOpc ∧ decode 0x35 = .error .reservedEsz ∧
    decode 0x12 = .error .fieldNotZero ∧ decode 0x80000001 = .error .reservedBits ∧
    decode 0x87 = .error .reservedBits := by decide

theorem test_decodeTableWord : decodeTableWord 32 0x64 = some (.addArrayW true) ∧
    decodeTableWord 32 0x24 = some (.addArrayW false) ∧ decodeTableWord 32 0x34 = none := by decide

/-- A command placed by `withFetchWord` is what the first step after reset runs (V-I1; V-E2 for QUERY). -/
theorem test_withFetchWord : after shown (step (State.reset.withFetchWord 32 0x01)) = some (some ⟨0, 0, 0⟩, 0x1000) ∧
    after shown (step (State.reset.withFetchWord 32 0x06)) = some (none, 0x621F) := by decide

/-! ### Leaf functions (section 2) -/

/-- V-B5, V-B9, V-B13, V-B16. -/
theorem test_leafAdd : leafAdd 32 4 0 1000 = 0x40000000 ∧ leafAdd 32 27 0 0xFFFFFFFF = 0x80000000 ∧
    leafAdd 64 0 0 100 = 0x0000001000000000 ∧ leafAdd 128 25 0 0xFFFFFFFF = 1 <<< 127 := by decide

/-- V-R2, V-R4, V-R5, V-R7: the top bucket and the wrapped runs. -/
theorem test_leafAddRange_run : leafAddRange 32 0 0 28 31 = 0xF0000000 ∧ leafAddRange 32 0 0 30 35 = 0xC000000F ∧
    leafAddRange 32 0 0 31 32 = 0x80000001 ∧ leafAddRange 32 0 0 5 35 = 0xFFFFFFEF := by decide

/-- V-R3, V-R9, V-R11, V-R19: saturation is on the quotients. -/
theorem test_leafAddRange_saturates : leafAddRange 32 0 0 0 30 = 0x7FFFFFFF ∧ leafAddRange 32 0 0 0 40 = 0xFFFFFFFF ∧
    leafAddRange 32 0 0 1 32 = 0xFFFFFFFF ∧ leafAddRange 32 4 0 8 503 = 0xFFFFFFFF := by decide

/-- V-R23, V-R26, V-R27, V-R30: the other widths. -/
theorem test_leafAddRange_widths : leafAddRange 16 0 0 14 17 = 0xC003 ∧
    leafAddRange 16 28 0 0xE0000000 0xFFFFFFFF = 0xC000 ∧ leafAddRange 64 0 0 60 66 = 0xF000000000000007 ∧
    leafAddRange 128 0 0 126 129 = (3 <<< 126) + 3 := by decide

/-- V-H2, V-H3, V-H8. -/
theorem test_leafMayHave : leafMayHave 16 0 0xC003 18 = false ∧ leafMayHave 64 0 0xF000000000000007 66 = true ∧
    leafMayHave 32 27 0x80000000 0xF7FFFFFF = false := by decide

/-- V-L1. -/
theorem test_laneHits : packLanes (laneHits 4 0x40000000 #v[1000, 1001, 0, 17384, 1512, 1016, 5, 37]) = 0b00011011 := by
  decide

/-! ### Commands (section 3): one step each -/

/-- V-I2, with `OPA` kept. -/
theorem test_init : after (fun t => (shown t, t.opa)) (exec .init { started sample with opa := 1000 }) =
    some ((some ⟨0, 0, 0⟩, 0x1000), 1000) := by decide

/-- V-A4. -/
theorem test_add : after shown (exec .add { started ⟨0, 0, 0⟩ with opa := 0x1234 }) =
    some (some ⟨0x00000008, 0x00100000, 0x00000200⟩, 0x2000) := by decide

/-- V-G9. -/
theorem test_addRange : after shown (exec .addRange { started ⟨0, 0, 0⟩ with opa := 1000, opb := 1100 }) =
    some (some ⟨0xC000001F, 0xFFFFFFFF, 0x00000006⟩, 0x3000) := by decide

/-- V-E3: `E_RANGE` leaves the masks. -/
theorem test_addRange_refused : after (fun t => (shown t, t.err)) (exec .addRange { started sample with opa := 14, opb := 10 }) =
    some ((some sample, 0x3100), 0b001) := by decide

/-- V-M4. -/
theorem test_addArrayB : after shown (exec (.addArrayB false) (buffer 0x1000 6 1)) =
    some (some ⟨0x00004005, 0x00000129, 0x00000001⟩, 0x4000) := by decide

/-- V-M10: a stride of minus 2, with the order of the reads. -/
theorem test_addArrayH : after (fun t => (shown t, t.reads.map Prod.fst)) (exec (.addArrayH true) (buffer 0x1004 3 0xFFFFFFFE)) =
    some ((some ⟨0x40000005, 0x00000120, 0x00000003⟩, 0x4000), [0x1004, 0x1005, 0x1002, 0x1003, 0x1000, 0x1001]) := by
  decide

/-- V-M17: an element that wraps around the top of memory. -/
theorem test_addArrayH_wraps : after shown (exec (.addArrayH true)
      { buffer 0xFFFFFFFF 1 2 with mem := [(0, 0xE8), (0xFFFFFFFF, 0x03)] }) = some (some sample, 0x4000) := by decide

/-- V-M14. -/
theorem test_addArrayW : after shown (exec (.addArrayW false)
      { buffer 0x2004 1 4 with mem := [(0x2004, 0xAA), (0x2005, 0xBB), (0x2006, 0xCC), (0x2007, 0xDD)] }) =
    some (some ⟨0x04000000, 0x00000400, 0x20000000⟩, 0x4000) := by decide

/-- As V-M5, by the sorted command (R193). -/
theorem test_addSortedArrayB : after shown (exec (.addSortedArrayB true) (buffer 0x1000 6 1)) =
    some (some ⟨0x00004005, 0x00000129, 0x00000001⟩, 0x5000) := by decide

/-- V-M3. -/
theorem test_addSortedArrayH : after shown (exec (.addSortedArrayH true) (buffer 0x1000 3 2)) =
    some (some ⟨0x40000005, 0x00000120, 0x00000003⟩, 0x5000) := by decide

/-- As V-M12, by the sorted command (R193). -/
theorem test_addSortedArrayW : after shown (exec (.addSortedArrayW true)
      { buffer 0x2000 1 4 with mem := [(0x2000, 0xE8), (0x2001, 0x03), (0x2002, 0x00), (0x2003, 0x00)] }) =
    some (some ⟨0x00000001, 0x00000001, 0x00000001⟩, 0x5000) := by decide

/-- T-D: 520 hits `L1` and `L2` only. -/
theorem test_query : after shown (exec .query { started sample with opa := 520 }) = some (some sample, 0x601C) := by decide

/-- V-V1. -/
theorem test_vquery : after (fun t => (t.result, t.vresult))
      (exec .vquery { started sample with lanes := #v[1000, 1001, 0, 17384, 1512, 1016, 5, 37] }) =
    some (0x701F, 0x2B191B09) := by decide

/-- V-V5: the OR over lanes of `HIT` is not the AND of the leaves' ORs. -/
theorem test_vquery_any : after (fun t => (t.result, t.vresult))
      (exec .vquery { started sample with lanes := #v[1001, 1512, 1016, 520, 0, 5, 37, 4] }) =
    some (0x701E, 0x0D0A0300) := by decide

/-! ### The port (section 3.7, 3.8) -/

/-- V-E8: an illegal query word. -/
theorem test_badcmd : after (fun t => (t.result, t.vresult, t.err)) (step (pending (.wr 4 0x87) (started sample))) =
    some (0x731F, 0xFFFFFFFF, 0b100) := by decide

/-- V-P2. -/
theorem test_bus_error : after (fun t => t.answer) (step (pending (.rd 0x7) blank)) = some (some .readError) ∧
    after (fun t => t.answer) (step (pending (.wr 0x18 0) (started sample))) = some (some .writeError) := by decide

/-- V-P1: `CONFIG`. -/
theorem test_config : configWord true = 0x01292024 ∧ configWord false = 0x00292024 := by decide

/-- V-E10: `wr ERR, 0x2` on `ERR = 0x7`. -/
theorem test_err_write : errAfterWrite 0b111 0x2 = 0b101 ∧ errAfterWrite 0b101 0xFFFFFFF8 = 0b101 := by decide

/-- P1, lines 6, 7 and 12 in the notation of R99. -/
theorem test_triple : (Pseudo.expand (.add 1000)).map HostEvent.triple =
      [some (true, 0x20, some 0x3E8), some (true, 0x10, some 2)] ∧
    HostEvent.triple (.rd (Reg.index .result)) = some (false, 0x14, none) := by decide

/-- V-M19: an unanswered read leaves no step. -/
theorem test_unanswered : exec (.addArrayB false) (buffer 0x1005 2 1) = .fault (.readUnanswered 0x1006) := rfl

/-- R68: a byte the platform does not hold is not answered, though another agent is said to be changing it. -/
theorem test_unanswered_contested : exec (.addArrayB false) { buffer 0x1005 2 1 with contested := [0x1006] } =
    .fault (.readUnanswered 0x1006) := rfl

/-! ### Witnesses: a state and operands that meet the hypotheses of each statement, clause by clause -/

/-- Both ends of the reserved words, for each part of R96. -/
theorem witness_DecoderAcceptsExactlyLegalWords : ∀ w ∈ ([0x00, 0x08, 0x34, 0x16, 0x81, 0xFFFFFFFF] : List Word),
    (pending (.wr 4 w) blank).port = [.wr 4 w] ∧ ∀ i, decode w ≠ .ok i := by
  intro w hw
  refine ⟨rfl, ?_⟩
  simp only [List.mem_cons, List.not_mem_nil, or_false] at hw
  rcases hw with rfl | rfl | rfl | rfl | rfl | rfl <;> exact not_ok rfl

theorem witness_TableRowsMatchDecoder : ∀ r ∈ opcodeRows, r.accepts r.matchBits = true := by decide

theorem witness_StepRunsDecodedCommand : (pending (.wr 4 0x54) blank).port = [.wr 4 0x54] ∧
    decode 0x54 = .ok (.addArrayH true) := by decide

/-- One input for each of the four clauses: illegal, not initialised, descending, accepted (`OPA = OPB`). -/
theorem witness_CommandErrorsReported : (∀ i, decode 0x13 ≠ .ok i) ∧
    (decode 0x03 = .ok .addRange ∧ blank.inited = false) ∧
    ((started sample).inited = true ∧ ({ started sample with opa := 1 } : State).opb < 1) ∧
    (¬ (started sample).opb < (started sample).opa ∧
      ∃ t, step (pending (.wr 4 0x03) (started sample)) = .next t) :=
  ⟨not_ok rfl, by decide, by decide, by decide, _, rfl⟩

theorem witness_IdleStepKeepsState : blank.port = [] := rfl

theorem witness_RstYieldsResetState : (pending .rst (started sample)).port = [.rst] := rfl

/-- A readable register, a mask with and without a value, and both ends of the reserved offsets. -/
theorem witness_ReadsReturnRegisters : (pending (.rd 23) blank).port = [.rd 23] ∧
    (pending (.rd 24) (started sample)).filter = some sample ∧ (pending (.rd 26) blank).filter = none ∧
    (pending (.rd 31) blank).port = [.rd 31] := by decide

theorem witness_MaskRegistersAreReadOnly : ∀ i : Fin 3,
    (pending (.rd (BitVec.ofNat 5 (24 + i.val))) (started sample)).filter = some sample ∧
    (pending (.rd (BitVec.ofNat 5 (24 + i.val))) blank).filter = none ∧
    (pending (.wr (BitVec.ofNat 5 (24 + i.val)) 1) blank).port = [.wr (BitVec.ofNat 5 (24 + i.val)) 1] := by decide

theorem witness_UninitialisedMaskReadIsFree : blank.filter = none ∧ (pending (.rd 25) blank).port = [.rd 25] := by decide

/-- Each clause at the offsets where the four lists meet. -/
theorem witness_BusErrorsExactly : (4 * (4 : BitVec 5).toNat ∈ [0x10, 0x1C, 0x34, 0x38, 0x3C, 0x6C, 0x70, 0x74, 0x78, 0x7C]) ∧
    (4 * (26 : BitVec 5).toNat ∉ [0x10, 0x1C, 0x34, 0x38, 0x3C, 0x6C, 0x70, 0x74, 0x78, 0x7C]) ∧
    (4 * (26 : BitVec 5).toNat ∈
      [0x00, 0x08, 0x14, 0x18, 0x1C, 0x34, 0x38, 0x3C, 0x60, 0x64, 0x68, 0x6C, 0x70, 0x74, 0x78, 0x7C]) ∧
    (4 * (4 : BitVec 5).toNat ∉
      [0x00, 0x08, 0x14, 0x18, 0x1C, 0x34, 0x38, 0x3C, 0x60, 0x64, 0x68, 0x6C, 0x70, 0x74, 0x78, 0x7C]) ∧
    (∃ t, step (pending (.wr 4 0x01) blank) = .next t) := ⟨by decide, by decide, by decide, by decide, _, rfl⟩

/-- The inputs of the clauses of `OperandWritesStore`, `CtrlWriteStoresVecEn` and `ErrWriteOneClears`. -/
theorem witness_register_writes : ∀ idx ∈ ([1, 3, 8, 9, 10, 11, 12, 16, 23] : List (BitVec 5)),
    (pending (.wr idx 0xDEADBEEF) blank).port = [.wr idx 0xDEADBEEF] ∧ (pending (.rd idx) blank).port = [.rd idx] := by
  decide

theorem witness_InitEmptiesFilter : ∃ t, exec .init blank = .next t ∧ (started ⟨0, 0, 0⟩).filter = t.filter := ⟨_, rfl, rfl⟩

theorem witness_AddSetsThreeBuckets : (started sample).filter = some sample ∧ blank.filter = none := by decide

/-- The range clauses at their meeting point, `OPA = OPB` and `OPA = OPB + 1`. -/
theorem witness_AddRangeAddsItsMembers : ((started sample).filter = some sample ∧ (started sample).opa ≤ (started sample).opb) ∧
    (({ started sample with opa := 1 } : State).inited = true ∧ (0 : Word) < 1) ∧ blank.filter = none := by decide

/-- A whole buffer, an empty one, and the refused case, for each element size. -/
theorem witness_ArrayCommandsAddElementsAsRead : (buffer 0x1000 3 2).filter = some ⟨0, 0, 0⟩ ∧
    BufferAnswered 2 (buffer 0x1000 3 2) ∧ BufferAnswered 1 (buffer 0x1000 6 1) ∧
    BufferAnswered 4 (buffer 0x1002 1 0) ∧ BufferAnswered 4 (buffer 0x1002 0 0) ∧ blank.filter = none :=
  ⟨rfl, all_answered (by decide), all_answered (by decide), all_answered (by decide), all_answered (by decide), rfl⟩

theorem witness_ElementAddressesStepByStride : 2 < (buffer 0x1000 3 2).count.toNat ∧ 1 < 2 := by decide

/-- Image A holds the big-endian half-words 1000, 5 and 37 (V-M1). -/
theorem witness_ArrayCommandsIngestOrdinaryBuffers : (buffer 0x1000 3 2).filter = some ⟨0, 0, 0⟩ ∧
    HoldsElements (buffer 0x1000 3 2) 2 true (fun i => if i = 0 then 1000 else if i = 1 then 5 else 37) ∧
    ∀ j, j < (buffer 0x1000 3 2).count.toNat →
      (if j = 0 then 1000 else if j = 1 then 5 else 37 : Word).toNat < 2 ^ (8 * 2) := by
  refine ⟨rfl, ?_, by decide⟩
  have h : ∀ i, i < 3 → ∀ k, k < 2 →
      ((0x1000 + i * 2 + k) % 2 ^ 32 ∉ ([] : List Nat)) ∧ Memory.lookup ((0x1000 + i * 2 + k) % 2 ^ 32) imageA =
        some ((if i = 0 then 1000 else if i = 1 then 5 else 37 : Word).extractLsb' (8 * (if true then 2 - 1 - k else k)) 8) := by
    decide
  exact fun i k hi hk => h i hi k hk

/-- Image A holds the little-endian byte 37 and the little-endian word `0x25000500`, for the other sizes. -/
theorem witness_ArrayCommandsIngest_sizes :
    HoldsElements (buffer 0x1005 1 1) 1 false (fun _ => 37) ∧ (37 : Word).toNat < 2 ^ (8 * 1) ∧
    HoldsElements (buffer 0x1002 1 4) 4 false (fun _ => 0x25000500) ∧ (0x25000500 : Word).toNat < 2 ^ (8 * 4) := by
  refine ⟨?_, by decide, ?_, by decide⟩
  · have h : ∀ i, i < 1 → ∀ k, k < 1 →
        ((0x1005 + i * 1 + k) % 2 ^ 32 ∉ ([] : List Nat)) ∧ Memory.lookup ((0x1005 + i * 1 + k) % 2 ^ 32) imageA =
          some ((37 : Word).extractLsb' (8 * (if false then 1 - 1 - k else k)) 8) := by decide
    exact fun i k hi hk => h i hi k hk
  · have h : ∀ i, i < 1 → ∀ k, k < 4 →
        ((0x1002 + i * 4 + k) % 2 ^ 32 ∉ ([] : List Nat)) ∧ Memory.lookup ((0x1002 + i * 4 + k) % 2 ^ 32) imageA =
          some ((0x25000500 : Word).extractLsb' (8 * (if false then 4 - 1 - k else k)) 8) := by decide
    exact fun i k hi hk => h i hi k hk

/-- A held command: the first unanswered address after two answered ones. -/
theorem witness_ArrayCommandsHeldByUnansweredRead : (buffer 0x1004 3 1).inited = true ∧
    arrayAddresses 1 (buffer 0x1004 3 1) = [0x1004, 0x1005] ++ 0x1006 :: [] ∧
    (∀ x ∈ ([0x1004, 0x1005] : List Word), Answered (buffer 0x1004 3 1) x) ∧ ¬ Answered (buffer 0x1004 3 1) 0x1006 :=
  ⟨rfl, by decide, all_answered (by decide), by decide⟩

theorem witness_ArrayIsSuccessiveAdds : (buffer 0x1000 3 2).inited = true ∧
    ∃ t, exec (.addArrayH true) (buffer 0x1000 3 2) = .next t := ⟨rfl, _, rfl⟩

/-- A command that reads a contested byte. -/
theorem witness_CommandsDrawOnlyContestedBytes : ∃ t, exec (.addArrayB false)
      { buffer 0x1000 2 1 with contested := [0x1001] } = .next t ∧ t.draws = 1 := ⟨_, rfl, rfl⟩

/-- The hypotheses of the query statements: masks with and without a value. -/
theorem witness_queries : (started sample).filter = some sample ∧ (started sample).inited = true ∧
    blank.filter = none := by decide

theorem witness_LaneDatapathAgrees : ∃ t, exec .vquery (started sample) = .next t := ⟨_, rfl⟩

/-- A completed query, a refused one that sets `ERR`, and a second equal query. -/
theorem witness_QueriesArePure : (∃ t, exec .query (started sample) = .next t) ∧
    (∃ t, exec .query blank = .next t ∧ t.err ≠ blank.err) ∧ (∃ t, exec .vquery blank = .next t ∧ t.err ≠ blank.err) ∧
    ∃ v, exec .vquery { started sample with opa := 7 } = .next v := by
  refine ⟨⟨_, rfl⟩, ⟨_, rfl, ?_⟩, ⟨_, rfl, ?_⟩, _, rfl⟩ <;> decide

theorem witness_MayHaveCallReadsAnswer :
    ({ started sample with port := Pseudo.expand (.mayHave 1000) } : State).filter = some sample ∧
    ({ started sample with port := Pseudo.expand (.mayHave 1000) } : State).port = Pseudo.expand (.mayHave 1000) ++ [] := by
  decide

/-- `add 1000` and one read afterwards; and a tree mutation. -/
theorem witness_SoundnessOverRuns : (∃ t u, exec .add (pending (.rd 5) { started sample with opa := 1000 }) = .next t ∧
      AddedBy .add (pending (.rd 5) { started sample with opa := 1000 }) t 1000 ∧ core.run 1 t = .next u ∧
      (∀ e ∈ t.port.take 1, ¬ ClearsFilter e) ∧ u.lanes[(0 : Fin 8)] = 0) ∧
    (∃ x ∈ [Mutation.range 10 14], x.adds 12) := by
  refine ⟨⟨_, _, rfl, rfl, rfl, ?_, rfl⟩, .range 10 14, by simp, by decide, by decide⟩
  intro e he
  have : e = .rd 5 := List.mem_singleton.mp he
  subst this
  simp [ClearsFilter, writeCommand]

/-- The lane clause: lane 0 holds the codepoint added. -/
theorem witness_SoundnessOverRuns_lane : ∃ t, exec .add { started sample with opa := 5, lanes := Vector.replicate 8 5 } = .next t ∧
    t.lanes[(0 : Fin 8)] = 5 := ⟨_, rfl, rfl⟩

theorem witness_StepsOnlySetMaskBits : ∃ t v v', step (pending (.wr 4 0x02) { started sample with opa := 5 }) = .next t ∧
    (∀ e ∈ (pending (.wr 4 0x02) { started sample with opa := 5 }).port.head?, ¬ ClearsFilter e) ∧
    exec .query { pending (.wr 4 0x02) { started sample with opa := 5 } with opa := 1000 } = .next v ∧
    exec .query { t with opa := 1000 } = .next v' ∧ v.result.getLsbD 0 = true := by
  refine ⟨_, _, _, rfl, ?_, rfl, rfl, by decide⟩
  intro e he
  have : e = .wr 4 0x02 := by simpa [pending] using he.symm
  subst this
  simp [ClearsFilter, writeCommand, Reg.index, Reg.offset]

theorem witness_RangeEqualsElementwiseUnion : (30 : Word) ≤ 35 ∧ 3 < Leaf.l1.width ∧
    ({ started sample with opa := 30, opb := 35 } : State).inited = true := by decide

theorem witness_ConjunctionLaw : (∃ t, exec .query blank = .next t) ∧ ∃ t, exec .vquery (started sample) = .next t :=
  ⟨⟨_, rfl⟩, _, rfl⟩

theorem witness_SaturationIsAbsorbing : (started ⟨0xFFFFFFFF, 0xFFFFFFFF, 0xFFFFFFFF⟩).filter =
      some ⟨0xFFFFFFFF, 0xFFFFFFFF, 0xFFFFFFFF⟩ ∧
    (∀ i : Fin 3, Masks.get ⟨0xFFFFFFFF, 0xFFFFFFFF, 0xFFFFFFFF⟩ i = 0xFFFFFFFF) ∧
    (∃ t, step (pending (.rd 24) (started ⟨0xFFFFFFFF, 0, 0⟩)) = .next t) ∧ ¬ ClearsFilter (.rd 24) := by
  refine ⟨rfl, by decide, ⟨_, rfl⟩, by simp [ClearsFilter, writeCommand]⟩

/-- Two states that differ but hold the same masks and operands; and two array commands with the same elements. -/
theorem witness_FiltersAreTheirMasks : (started sample).filter = ({ started sample with err := 1, result := 5 } : State).filter ∧
    (started sample).opa = ({ started sample with err := 1 } : State).opa ∧
    ∃ s' t', exec (.addArrayB true) (buffer 0x1005 1 1) = .next s' ∧
      exec (.addSortedArrayH true) (buffer 0x1004 1 1) = .next t' ∧
      elementsOf 1 true 1 (bytesRead (buffer 0x1005 1 1) s') = elementsOf 2 true 1 (bytesRead (buffer 0x1004 1 1) t') :=
  ⟨rfl, rfl, _, _, rfl, rfl, rfl⟩

/-- A state that meets the invariant, with a non-trivial memory, and a step from it. -/
theorem witness_StepKeepsInvariant : (pending (.wr 4 0x54) (buffer 0x1000 3 2)).Inv ∧
    ∃ t, step (pending (.wr 4 0x54) (buffer 0x1000 3 2)) = .next t := by
  refine ⟨⟨by decide, by decide, fun _ => rfl, ?_, ?_⟩, _, rfl⟩
  · unfold ResultWf
    decide
  · unfold VresultWf
    decide

/-- A reset, a VQUERY, an INIT that changes the masks, and an ADD that does. -/
theorem witness_EveryStepStaysInItsWriteSet : (∃ t, step (pending .rst (started sample)) = .next t) ∧
    (∃ t, step (pending (.wr 4 0x07) (started sample)) = .next t) ∧
    (pending (.wr 4 0x07) (started sample)).port.head? ≠ some .rst ∧
    (∃ t, step (pending (.wr 4 0x01) (started sample)) = .next t ∧ t.filter ≠ (started sample).filter) ∧
    (∃ t, step (pending (.wr 4 0x02) (started sample)) = .next t ∧ t.filter ≠ (started sample).filter) :=
  ⟨⟨_, rfl⟩, ⟨_, rfl⟩, by decide, ⟨_, rfl, by decide⟩, _, rfl, by decide⟩

theorem witness_OnlyArrayCommandsReadMemory : ∃ t, step (pending (.wr 4 0x54) (buffer 0x1000 3 2)) = .next t ∧
    t.reads ≠ (pending (.wr 4 0x54) (buffer 0x1000 3 2)).reads := ⟨_, rfl, by decide⟩

theorem witness_EngineNeverWritesMemory : (∃ t, step (pending .rst (buffer 0x1000 3 2)) = .next t) ∧
    ∀ act, (pending .rst (buffer 0x1000 3 2)).port.head? ≠ some (.platform act) := ⟨⟨_, rfl⟩, by simp [pending]⟩

/-- INIT, reset, and a refused command before INIT. -/
theorem witness_InitedFollowsLifecycle : (∃ t, step (pending (.wr 4 0x01) blank) = .next t ∧ blank.inited = false ∧ t.inited = true) ∧
    (∃ t, step (pending .rst (started sample)) = .next t ∧ (started sample).inited = true ∧ t.inited = false) :=
  ⟨⟨_, rfl, rfl, rfl⟩, _, rfl, rfl, rfl⟩

/-- Refused QUERY and VQUERY words, and a refused ADD_RANGE. -/
theorem witness_RefusalsAnswerSafely : (∃ t, step (pending (.wr 4 0x06) blank) = .next t ∧ t.result.extractLsb' 8 4 ≠ 0) ∧
    (∃ t, step (pending (.wr 4 0x87) (started sample)) = .next t ∧ t.result.extractLsb' 8 4 ≠ 0) ∧
    (∃ t, step (pending (.wr 4 0x03) { started sample with opa := 1 }) = .next t ∧ t.result.extractLsb' 8 4 ≠ 0) := by
  refine ⟨⟨_, rfl, ?_⟩, ⟨_, rfl, ?_⟩, _, rfl, ?_⟩ <;> decide

theorem witness_ResultEchoesCommand : ∃ t, step (pending (.wr 4 0xFFFFFFFF) blank) = .next t := ⟨_, rfl⟩

theorem witness_PlatformStoreIsReadBack :
    (0x1000 : Word).toNat ∉ (buffer 0x1000 3 2).contested ∧
    (pending (.platform (.store 0x1000 7)) (buffer 0x1000 3 2)).port = [.platform (.store 0x1000 7)] ∧
    (pending (.platform (.withdraw 0x1000)) { buffer 0x1000 3 2 with contested := [0x1000] }).port =
      [.platform (.withdraw 0x1000)] := by decide

/-- The three cases of R126 at their boundaries, on leaf `(32, 0)`: V-R6, V-R3, V-R5. -/
theorem witness_RunArithmeticCases : ((0 : Word) ≤ 31 ∧ 32 - 1 ≤ 31 / 2 ^ 0 - 0 / 2 ^ 0) ∧
    ((0 : Word) ≤ 30 ∧ 30 / 2 ^ 0 - 0 / 2 ^ 0 < 32 - 1 ∧ 0 % 32 ≤ 30 % 32) ∧
    ((31 : Word) ≤ 32 ∧ 32 / 2 ^ 0 - 31 / 2 ^ 0 < 32 - 1 ∧ 32 / 2 ^ 0 % 32 < 31 / 2 ^ 0 % 32) := by decide

theorem witness_CommandsActOnTheTree : (started sample).filter = some sample ∧ (started sample).opa ≤ (started sample).opb ∧
    (∃ t, exec .init (started sample) = .next t) ∧ (∃ t, exec .add (started sample) = .next t) ∧
    (∃ t, exec .addRange (started sample) = .next t) ∧ (∃ t, exec (.addArrayH true) (buffer 0x1000 3 2) = .next t) ∧
    (∃ t, exec .query (started sample) = .next t) :=
  ⟨rfl, by decide, ⟨_, rfl⟩, ⟨_, rfl⟩, ⟨_, rfl⟩, ⟨_, rfl⟩, _, rfl⟩

end Sys2Proof.Tests
end

section
/-! The legal parameter pairs of a leaf (R7): what `Leaf.make` builds, and the bound on the shift at each width. -/

namespace Sys2Proof

/-- Construction keeps the raw parameters; the legality of the pair is the built leaf's own. -/
theorem Leaf.make_eq_some_iff {w s : Nat} {l : Leaf} : Leaf.make w s = some l ↔ l.width = w ∧ l.shift = s := by
  constructor
  · intro h
    unfold Leaf.make at h
    split at h
    · cases h
      exact ⟨rfl, rfl⟩
    · cases h
  · rintro ⟨rfl, rfl⟩
    exact dif_pos l.legal

theorem leafLegal_iff_exists_make {w s : Nat} :
    LeafLegal w s ↔ ∃ l, Leaf.make w s = some l ∧ l.width = w ∧ l.shift = s := by
  constructor
  · intro h
    exact ⟨⟨w, s, h⟩, Leaf.make_eq_some_iff.mpr ⟨rfl, rfl⟩, rfl, rfl⟩
  · rintro ⟨l, -, rfl, rfl⟩
    exact l.legal

@[simp] theorem numBits_16 : numBits 16 = 4 := rfl
@[simp] theorem numBits_32 : numBits 32 = 5 := rfl
@[simp] theorem numBits_64 : numBits 64 = 6 := rfl
@[simp] theorem numBits_128 : numBits 128 = 7 := rfl

/-- The bound of R7 with `num_bits` evaluated at each legal width: `32 - num_bits(W)` is 28, 27, 26 and 25. -/
theorem leafLegal_iff_shift_le {w s : Nat} :
    LeafLegal w s ↔ (w = 16 ∧ s ≤ 28) ∨ (w = 32 ∧ s ≤ 27) ∨ (w = 64 ∧ s ≤ 26) ∨ (w = 128 ∧ s ≤ 25) := by
  constructor
  · rintro ⟨rfl | rfl | rfl | rfl, hs⟩ <;> simp at hs ⊢ <;> omega
  · rintro (⟨rfl, hs⟩ | ⟨rfl, hs⟩ | ⟨rfl, hs⟩ | ⟨rfl, hs⟩) <;> simp [LeafLegal] <;> omega

/-- Settles O49: a leaf is built exactly from a legal pair, and legality is the bound of each width. -/
theorem onlyLegalLeavesExist : Obligations.OnlyLegalLeavesExist := by
  intro w s
  exact leafLegal_iff_exists_make.symm.trans leafLegal_iff_shift_le

end Sys2Proof
end

section
/-! Mask growth (R133, R251): what every mutation of the masks does to their bits. -/

namespace Sys2Proof.Machine

theorem Grows.refl {w : Nat} (m : BitVec w) : Grows m m := BitVec.and_self

theorem Grows.trans {w : Nat} {a b c : BitVec w} (h : Grows a b) (h' : Grows b c) : Grows a c := by
  unfold Grows at *
  rw [← h, ← BitVec.and_assoc, h']

theorem grows_or {w : Nat} (m x : BitVec w) : Grows m (m ||| x) := by
  ext k hk
  simp +contextual [Bool.and_or_distrib_right]

theorem grows_allOnes {w : Nat} (m : BitVec w) : Grows m (BitVec.allOnes w) := BitVec.allOnes_and

theorem leafAdd_grows (w s : Nat) (m : BitVec w) (c : Word) : Grows m (leafAdd w s m c) := grows_or _ _

theorem leafAddRange_grows (w s : Nat) (m : BitVec w) (a b : Word) : Grows m (leafAddRange w s m a b) := by
  unfold leafAddRange
  split
  · exact grows_allOnes m
  · exact grows_or _ _

theorem MasksGrow.refl (m : Masks) : MasksGrow m m := ⟨Grows.refl _, Grows.refl _, Grows.refl _⟩

theorem MasksGrow.trans {a b c : Masks} : MasksGrow a b → MasksGrow b c → MasksGrow a c
  | ⟨h0, h1, h2⟩, ⟨h0', h1', h2'⟩ => ⟨h0.trans h0', h1.trans h1', h2.trans h2'⟩

theorem Masks.add_grows (m : Masks) (c : Word) : MasksGrow m (m.add c) :=
  ⟨leafAdd_grows _ _ _ _, leafAdd_grows _ _ _ _, leafAdd_grows _ _ _ _⟩

theorem Masks.addRange_grows (m : Masks) (a b : Word) : MasksGrow m (m.addRange a b) :=
  ⟨leafAddRange_grows _ _ _ _ _, leafAddRange_grows _ _ _ _ _, leafAddRange_grows _ _ _ _ _⟩

theorem Masks.foldl_add_grows (m : Masks) (cs : List Word) : MasksGrow m (cs.foldl Masks.add m) := by
  induction cs generalizing m with
  | nil => exact .refl m
  | cons c cs ih => exact (m.add_grows c).trans (ih (m.add c))

end Sys2Proof.Machine
end

section
/-! What a command word stands for: the fields the decoder reads, and the word behind a decoded command (R91, R93). -/

namespace Sys2Proof.Machine

theorem opcField_toNat (w : Word) : (opcField w).toNat = w.toNat % 16 := by
  simp [opcField, BitVec.extractLsb'_toNat]

/-- Only words below `2^7` are legal (R96 (a)). -/
theorem toNat_lt_of_decode {w : Word} {i : Instr} (h : decode w = .ok i) : w.toNat < 2 ^ 7 := by
  have hz : zeroField w = 0 := by
    by_contra hz
    rw [decode, if_pos hz] at h
    cases h
  have hn := congrArg BitVec.toNat hz
  rw [zeroField, BitVec.extractLsb'_toNat, Nat.shiftRight_eq_div_pow] at hn
  change _ = 0 at hn
  have := w.isLt
  omega

/-- A legal word is the word of the command it decodes to: no second word stands for it (R93). -/
theorem eq_encode_of_decode {w : Word} {i : Instr} (h : decode w = .ok i) : w = encode i := by
  have small : ∀ n : BitVec 7, (decode (n.setWidth 32)).toOption.all
      (fun i => decide (n.setWidth 32 = encode i)) = true := by decide
  have hw : (w.setWidth 7).setWidth 32 = w := by
    apply BitVec.eq_of_toNat_eq
    have := toNat_lt_of_decode h
    simp only [BitVec.toNat_setWidth]
    omega
  simpa [hw, h, Except.toOption] using small (w.setWidth 7)

/-- The opcode of an array command is 4 or 5 (R93). -/
theorem opcField_encode_array {i : Instr} {n : Nat} {be : Bool} (h : arrayShape i = some (n, be)) :
    opcField (encode i) = 4 ∨ opcField (encode i) = 5 := by
  cases i with
  | init | add | addRange | query | vquery => cases h
  | addArrayB be | addArrayH be | addArrayW be => cases be <;> decide
  | addSortedArrayB be | addSortedArrayH be | addSortedArrayW be => cases be <;> decide

end Sys2Proof.Machine
end

section
/-! Transactions and the reset, one rule each: what a step answers when its input reads or writes a register, and every
effect a write transaction can have (R231, R233, R290). -/

namespace Sys2Proof.Machine

theorem step_rst {s : State} {rest : List HostEvent} (h : s.port = .rst :: rest) :
    step s = .next { s with port := rest }.afterReset := step_cons h

/-- A read of a readable register returns its value (R231). -/
theorem step_read {s : State} {rest : List HostEvent} {r : Reg} {v : Word} (h : s.port = .rd (Reg.index r) :: rest)
    (hv : regValue r s = some v) :
    step s = .next { s with port := rest, answer := some (.readOk v), draws := s.draws + regDraws r s } := by
  have hv' : regValue r { s with port := rest } = some v := hv
  rw [step_cons h, takeEvent, portRead, regAt_index]
  simp only [hv']
  rfl

/-- A write of `MASKi` is a bus error (R35). -/
theorem portWrite_mask (i : Fin 3) (data : Word) (s : State) :
    portWrite (Reg.index (.mask i)) data s = .next { s with answer := some .writeError } := by
  rw [portWrite, regAt_index]

/-- A write of `VLANEi` stores that lane (R37). -/
theorem portWrite_vlane (i : Fin 8) (data : Word) (s : State) :
    portWrite (Reg.index (.vlane i)) data s =
      .next { s with answer := some .writeOk, lanes := s.lanes.set i data } := by
  rw [portWrite, regAt_index]

theorem index_mask (i : Fin 3) : Reg.index (.mask i) = BitVec.ofNat 5 (24 + i.val) := by
  revert i
  decide

theorem index_vlane (i : Fin 8) : Reg.index (.vlane i) = BitVec.ofNat 5 (16 + i.val) := by
  revert i
  decide

/-- Writing one lane leaves the others (R37). -/
theorem getElem_lanes_set (v : Vector Word 8) (i j : Fin 8) (data : Word) :
    (v.set i data)[j] = if j = i then data else v[j] := by
  simp [Vector.getElem_set, Fin.ext_iff, eq_comm]

/-- Everything a write transaction that completes can do, with the register that was written (R233, R236). -/
inductive WriteEffect (data : Word) (s : State) : BitVec 5 → State → Prop where
  | busError (idx : BitVec 5) : WriteEffect data s idx { s with answer := some .writeError }
  | ctrl : WriteEffect data s 1
      { s with answer := some .writeOk, vecEn := vecEnAfterWrite Config.hasVec s.vecEn data }
  | err : WriteEffect data s 3 { s with answer := some .writeOk, err := errAfterWrite s.err data }
  | cmd {t : State} (h : launch data { s with answer := some .writeOk } = .next t) : WriteEffect data s 4 t
  | opa : WriteEffect data s 8 { s with answer := some .writeOk, opa := data }
  | opb : WriteEffect data s 9 { s with answer := some .writeOk, opb := data }
  | addr : WriteEffect data s 10 { s with answer := some .writeOk, addr := data }
  | count : WriteEffect data s 11 { s with answer := some .writeOk, count := data }
  | stride : WriteEffect data s 12 { s with answer := some .writeOk, stride := data }
  | vlane (i : Fin 8) : WriteEffect data s (BitVec.ofNat 5 (16 + i.val))
      { s with answer := some .writeOk, lanes := s.lanes.set i data }

theorem portWrite_effect {idx : BitVec 5} {data : Word} {s t : State} (h : portWrite idx data s = .next t) :
    WriteEffect data s idx t := by
  cases hr : regAt idx with
  | none =>
    rw [portWrite, hr] at h
    obtain rfl := Host.Outcome.next.inj h
    exact .busError idx
  | some r =>
    obtain rfl := regAt_eq hr
    cases r with
    | cmd => exact .cmd h
    | vlane i =>
      rw [portWrite_vlane] at h
      obtain rfl := Host.Outcome.next.inj h
      rw [index_vlane]
      exact .vlane i
    | mask i =>
      rw [portWrite_mask] at h
      obtain rfl := Host.Outcome.next.inj h
      exact .busError _
    | config | status | result | vresult =>
      obtain rfl := Host.Outcome.next.inj h
      exact .busError _
    | ctrl => obtain rfl := Host.Outcome.next.inj h; exact .ctrl
    | err => obtain rfl := Host.Outcome.next.inj h; exact .err
    | opa => obtain rfl := Host.Outcome.next.inj h; exact .opa
    | opb => obtain rfl := Host.Outcome.next.inj h; exact .opb
    | addr => obtain rfl := Host.Outcome.next.inj h; exact .addr
    | count => obtain rfl := Host.Outcome.next.inj h; exact .count
    | stride => obtain rfl := Host.Outcome.next.inj h; exact .stride

end Sys2Proof.Machine
end

section
/-! What a command word reports: the error report field by field (R31, R267), `RESULT` (R33), and the frame of a launch
(R41). -/

namespace Sys2Proof.Machine

/-- The `ERR` bit of a refusal is one below its code (R31, R265). -/
theorem CmdError.errBit_getLsbD (e : CmdError) (k : Nat) : e.errBit.getLsbD k = decide (e.code.toNat = k + 1) := by
  by_cases hk : k < 3
  · interval_cases k <;> cases e <;> rfl
  · rw [BitVec.getLsbD_of_ge _ _ (by omega)]
    cases e <;> simp [CmdError.code] <;> omega

theorem CmdError.code_le (e : CmdError) : e.code.toNat ≤ 3 := by
  cases e <;> decide

theorem errAfterWrite_getLsbD (old : BitVec 3) (data : Word) (k : Nat) :
    (errAfterWrite old data).getLsbD k = (old.getLsbD k && !data.getLsbD k) := by
  by_cases hk : k < 3
  · simp [errAfterWrite, hk]
  · simp [errAfterWrite, hk, BitVec.getLsbD_of_ge old k (by omega)]

theorem refusedHits_toNat (opc : BitVec 4) :
    (refusedHits opc).toNat = if opc.toNat = 6 ∨ opc.toNat = 7 then 0x1F else 0 := by
  revert opc
  decide

/-- The model's report is the report of R267. -/
theorem reported_report {e : CmdError} {bit : Nat} (he : e.code.toNat = bit + 1) (opc : BitVec 4) (s : State) :
    Reported bit (bit + 1) opc.toNat s (report e opc s) := by
  refine ⟨?_, fun k hk => ?_, ?_, ?_, rfl, ⟨⟨rfl, rfl, rfl, rfl, rfl, rfl, rfl⟩, ⟨fun _ => rfl, rfl⟩, rfl, rfl⟩, rfl⟩
  · simp [CmdError.errBit_getLsbD, he]
  · simp [CmdError.errBit_getLsbD, he, hk.symm]
  · rw [report_result, resultWord_toNat, refusedHits_toNat, he]
  · have h7 : opc = 7 ↔ opc.toNat = 7 := BitVec.toNat_eq
    rw [report_vresult, if_congr h7 rfl rfl]
    rfl

/-- Every command but INIT is refused while the masks hold no value (R98). -/
theorem exec_uninit {i : Instr} {s : State} (hf : s.filter = none) (hi : i ≠ .init) :
    exec i s = .next (report .uninit (opcField (encode i)) s) := by
  cases i with
  | init => exact absurd rfl hi
  | add | addRange | query | vquery => exact whenInited_none hf _
  | addArrayB be | addArrayH be | addArrayW be => exact (exec_array rfl s).trans (whenInited_none hf _)
  | addSortedArrayB be | addSortedArrayH be | addSortedArrayW be => exact (exec_array rfl s).trans (whenInited_none hf _)

/-- Every completed command leaves `RESULT` in the format of R33, its own opcode echoed. -/
theorem CommandEffect.result_eq {i : Instr} {s t : State} (h : CommandEffect s i t) :
    ∃ code hits, code.toNat ≤ 3 ∧ t.result = resultWord (opcField (encode i)) code hits := by
  cases h with
  | uninit hf hi => exact ⟨_, _, CmdError.code_le .uninit, rfl⟩
  | range hf hlt => exact ⟨_, _, CmdError.code_le .range, rfl⟩
  | init | add hf | addRange hf hle | array hf hi hl hr ha hb | query hf | vquery hf =>
    exact ⟨0, _, by decide, rfl⟩

/-- Every word that `CMD` takes leaves `RESULT` in the format of R33, the word's low four bits echoed. -/
theorem launch_result {w : Word} {s t : State} (h : launch w s = .next t) :
    ∃ code hits, code.toNat ≤ 3 ∧ t.result = resultWord (opcField w) code hits := by
  rcases launch_next h with ⟨-, rfl⟩ | ⟨i, hi, he⟩
  · exact ⟨_, _, CmdError.code_le .badcmd, rfl⟩
  · rw [eq_encode_of_decode hi]
    exact (exec_next he).result_eq

theorem launch_frame {w : Word} {s t : State} (h : launch w s = .next t) : CommandFrame s t := by
  rcases launch_next h with ⟨-, rfl⟩ | ⟨i, -, he⟩
  · exact ⟨⟨rfl, rfl, rfl, rfl, rfl, rfl, rfl⟩, ⟨fun _ => rfl, rfl⟩, rfl, rfl⟩
  · exact (exec_next he).frame

end Sys2Proof.Machine
end

section
/-! The write set of R41 as one predicate on the input a step takes, and the step lemma for it. -/

namespace Sys2Proof.Machine

/-- What a step that takes input `e` may change from `s` to `t`, register by register (R41). The clauses default to
"unchanged", so that a step's proof names only what it writes. -/
structure WriteSet (e : Option HostEvent) (s t : State) : Prop where
  opa : t.opa = s.opa ∨ e = some (.wr 8 t.opa) := by exact .inl rfl
  opb : t.opb = s.opb ∨ e = some (.wr 9 t.opb) := by exact .inl rfl
  addr : t.addr = s.addr ∨ e = some (.wr 10 t.addr) := by exact .inl rfl
  count : t.count = s.count ∨ e = some (.wr 11 t.count) := by exact .inl rfl
  stride : t.stride = s.stride ∨ e = some (.wr 12 t.stride) := by exact .inl rfl
  lanes : ∀ i : Fin 8, t.lanes[i] = s.lanes[i] ∨ e = some (.wr (BitVec.ofNat 5 (16 + i.val)) t.lanes[i]) := by
    exact fun _ => .inl rfl
  vecEn : t.vecEn = s.vecEn ∨ (Config.hasVec = true ∧ ∃ d, e = some (.wr 1 d) ∧ t.vecEn = d.getLsbD 0) := by
    exact .inl rfl
  err : ∀ k, t.err.getLsbD k = s.err.getLsbD k ∨
      (t.err.getLsbD k = false ∧ ∃ d, e = some (.wr 3 d) ∧ d.getLsbD k = true) ∨
      (t.err.getLsbD k = true ∧ (t.result.extractLsb' 8 4).toNat = k + 1 ∧ ∃ w, e = some (.wr 4 w)) := by
    exact fun _ => .inl rfl
  result : t.result = s.result ∨ ∃ w, e = some (.wr 4 w) := by exact .inl rfl
  vresult : t.vresult = s.vresult ∨ ∃ w, e = some (.wr 4 w) ∧ w.toNat % 16 = 7 := by exact .inl rfl
  filter : t.filter = s.filter ∨
      (e = some (.wr 4 0x00000001) ∧ t.filter = some ⟨0, 0, 0⟩ ∧ t.result.extractLsb' 8 4 = 0) ∨
      (∃ w m m', e = some (.wr 4 w) ∧ 2 ≤ w.toNat % 16 ∧ w.toNat % 16 ≤ 5 ∧
        s.filter = some m ∧ t.filter = some m' ∧ MasksGrow m m' ∧ t.result.extractLsb' 8 4 = 0) := by
    exact .inl rfl

theorem report_writeSet (e : CmdError) {w : Word} {opc : BitVec 4} (hw : opc = opcField w) (s : State) :
    WriteSet (some (.wr 4 w)) s (report e opc s) where
  result := .inr ⟨w, rfl⟩
  err k := by
    rw [report_result, resultWord_code, report_err, BitVec.getLsbD_or, e.errBit_getLsbD]
    by_cases hk : e.code.toNat = k + 1
    · exact .inr (.inr ⟨by simp [hk], hk, w, rfl⟩)
    · exact .inl (by simp [hk])
  vresult := by
    rw [report_vresult]
    split
    · next h7 => exact .inr ⟨w, rfl, by rw [← opcField_toNat, ← hw, h7]; rfl⟩
    · exact .inl rfl

/-- An ADD command of `OPC` 2 to 5, after the reads `log` of its elements. -/
theorem mutated_writeSet {s u : State} {w : Word} {m m' : Masks} {log : List (Word × Byte)} (opc : BitVec 4)
    (hw : 2 ≤ w.toNat % 16 ∧ w.toNat % 16 ≤ 5) (hf : s.filter = some m) (hg : MasksGrow m m')
    (hu : OnlyReads s u log) : WriteSet (some (.wr 4 w)) s (u.mutated opc m') := by
  obtain rfl := hu
  exact {
    result := .inr ⟨w, rfl⟩
    filter := .inr (.inr ⟨w, m, m', rfl, hw.1, hw.2, hf, rfl, hg, resultWord_code _ _ _⟩) }

/-- A command stays in its row of R41. -/
theorem CommandEffect.writeSet {i : Instr} {s t : State} (h : CommandEffect s i t) :
    WriteSet (some (.wr 4 (encode i))) s t := by
  cases h with
  | uninit hf hi => exact report_writeSet .uninit rfl s
  | range hf hlt => exact report_writeSet .range rfl s
  | init => exact { result := .inr ⟨_, rfl⟩, filter := .inr (.inl ⟨rfl, rfl, resultWord_code _ _ _⟩) }
  | add hf => exact mutated_writeSet 2 (by decide) hf (Masks.add_grows _ _) (.refl s)
  | addRange hf hle => exact mutated_writeSet 3 (by decide) hf (Masks.addRange_grows _ _ _) (.refl s)
  | array hf hi hl hr ha hb =>
    refine mutated_writeSet _ ?_ hf (Masks.foldl_add_grows _ _) hr
    rw [← opcField_toNat]
    rcases opcField_encode_array hi with h | h <;> rw [h] <;> decide
  | query hf => exact { result := .inr ⟨_, rfl⟩ }
  | vquery hf => exact { result := .inr ⟨_, rfl⟩, vresult := .inr ⟨_, rfl, rfl⟩ }

theorem launch_writeSet {w : Word} {s t : State} (h : launch w s = .next t) : WriteSet (some (.wr 4 w)) s t := by
  rcases launch_next h with ⟨-, rfl⟩ | ⟨i, hi, he⟩
  · exact report_writeSet .badcmd rfl s
  · rw [eq_encode_of_decode hi]
    exact (exec_next he).writeSet

/-- A write transaction stays in its row of R41. -/
theorem WriteEffect.writeSet {idx : BitVec 5} {data : Word} {s t : State} (h : WriteEffect data s idx t) :
    WriteSet (some (.wr idx data)) s t := by
  cases h with
  | busError => exact {}
  | cmd h =>
    have hw := launch_writeSet h
    exact { hw with }
  | ctrl =>
    refine { vecEn := ?_ }
    cases hv : Config.hasVec with
    | false => exact .inl rfl
    | true => exact .inr ⟨rfl, data, rfl, rfl⟩
  | err =>
    refine { err := fun k => ?_ }
    rw [errAfterWrite_getLsbD]
    cases hd : data.getLsbD k with
    | false => exact .inl (by simp)
    | true => exact .inr (.inl ⟨by simp, data, rfl, hd⟩)
  | opa => exact { opa := .inr rfl }
  | opb => exact { opb := .inr rfl }
  | addr => exact { addr := .inr rfl }
  | count => exact { count := .inr rfl }
  | stride => exact { stride := .inr rfl }
  | vlane i =>
    refine { lanes := fun j => ?_ }
    rw [getElem_lanes_set]
    split
    · next hj => exact .inr (by rw [hj])
    · exact .inl rfl

/-- Every step but a reset stays in the row of the input it takes (R41). -/
theorem step_writeSet {s t : State} (h : step s = .next t) (hr : s.port.head? ≠ some .rst) :
    WriteSet s.port.head? s t := by
  cases hp : s.port with
  | nil =>
    rw [step_nil hp] at h
    obtain rfl := Host.Outcome.next.inj h
    exact {}
  | cons e rest =>
    rw [step_cons hp] at h
    cases e with
    | rd idx =>
      obtain rfl := Host.Outcome.next.inj h
      rw [portRead_only]
      exact {}
    | wr idx data =>
      have hw := (portWrite_effect h).writeSet
      exact { hw with }
    | rst => exact absurd (by rw [hp]; rfl) hr
    | platform act =>
      obtain rfl := Host.Outcome.next.inj h
      cases act <;> exact {}

/-- A reset puts every register to its value of R40 (R290). -/
theorem step_rst_sameEngine {s t : State} (h : step s = .next t) (hr : s.port.head? = some .rst) :
    SameEngine State.reset t := by
  obtain ⟨rest, hp⟩ := List.head?_eq_some_iff.mp hr
  rw [step_rst hp] at h
  obtain rfl := Host.Outcome.next.inj h
  exact ⟨rfl, ⟨rfl, rfl, rfl, rfl, rfl, rfl, rfl⟩, rfl, rfl, rfl⟩

theorem launch_init (s : State) : launch 0x00000001 s = .next (s.mutated 1 Masks.cleared) := rfl

/-- What every step makes of `INITED` (R22). -/
theorem step_inited_iff {s t : State} (h : step s = .next t) :
    t.inited = true ↔ s.port.head? ≠ some .rst ∧ (s.inited = true ∨ s.port.head? = some (.wr 4 0x00000001)) := by
  by_cases hr : s.port.head? = some .rst
  · have ht : t.filter = none := (step_rst_sameEngine h hr).1
    simp [(not_inited_iff t).mpr ht, hr]
  simp only [ne_eq, hr, not_false_eq_true, true_and]
  have hw := (step_writeSet h hr).filter
  constructor
  · intro ht
    rcases hw with hf | ⟨hi, -, -⟩ | ⟨w, m, m', -, -, -, hf, -, -⟩
    · exact .inl (by rwa [State.inited, ← hf])
    · exact .inr hi
    · exact .inl ((inited_iff s).mpr ⟨m, hf⟩)
  · rintro (hs | hi)
    · rcases hw with hf | ⟨-, hf, -⟩ | ⟨w, m, m', -, -, -, -, hf, -⟩
      · rwa [State.inited, hf]
      · exact (inited_iff t).mpr ⟨_, hf⟩
      · exact (inited_iff t).mpr ⟨_, hf⟩
    · obtain ⟨rest, hp⟩ := List.head?_eq_some_iff.mp hi
      rw [step_cmd hp, launch_init] at h
      obtain rfl := Host.Outcome.next.inj h
      rfl

end Sys2Proof.Machine
end

section
/-! The statements about the state: reset, the registers that store, the write sets, `INITED` and `RESULT`. -/

namespace Sys2Proof

open Machine

/-- Settles O42, from the write set of each input. -/
theorem everyStepStaysInItsWriteSet : Obligations.EveryStepStaysInItsWriteSet := by
  intro s t h
  refine ⟨step_rst_sameEngine h, fun hr => ?_⟩
  have w := step_writeSet h hr
  exact ⟨w.opa, w.opb, w.addr, w.count, w.stride, w.lanes, w.vecEn, w.err, w.result, w.vresult, w.filter⟩

/-- Settles O44: every effect of a transaction leaves the memory, and a command has the frame of R41. -/
theorem engineNeverWritesMemory : Obligations.EngineNeverWritesMemory := by
  intro s t h hact
  cases hp : s.port with
  | nil =>
    rw [step_nil hp] at h
    obtain rfl := Host.Outcome.next.inj h
    exact ⟨fun _ => rfl, rfl⟩
  | cons e rest =>
    rw [step_cons hp] at h
    cases e with
    | rd idx =>
      obtain rfl := Host.Outcome.next.inj h
      rw [portRead_only]
      exact ⟨fun _ => rfl, rfl⟩
    | rst =>
      obtain rfl := Host.Outcome.next.inj h
      exact ⟨fun _ => rfl, rfl⟩
    | platform act => exact absurd (by rw [hp]; rfl) (hact act)
    | wr idx data =>
      cases portWrite_effect h with
      | cmd hl =>
        obtain ⟨-, hm, -⟩ := launch_frame hl
        exact hm
      | _ => exact ⟨fun _ => rfl, rfl⟩

/-- Settles O45: `step_inited_iff` is the lifecycle, `exec_uninit` the refusal before INIT. -/
theorem initedFollowsLifecycle : Obligations.InitedFollowsLifecycle := by
  refine ⟨rfl, fun s t h => ?_, fun s hs => ?_⟩
  · have key := step_inited_iff h
    refine ⟨fun hs ht => ?_, fun hs ht => ?_, fun hi => key.mpr ⟨by simp [hi], .inr hi⟩⟩
    · exact (key.mp ht).2.resolve_left (by simp [hs])
    · by_contra hr
      simp [ht, hs, hr] at key
  · have hf := (not_inited_iff s).mp hs
    refine ⟨hf, fun i hi => ⟨_, exec_uninit hf hi, ?_⟩⟩
    rw [← opcField_toNat]
    exact reported_report rfl _ s

/-- Settles O47, from the format in which every launch leaves `RESULT`. -/
theorem resultEchoesCommand : Obligations.ResultEchoesCommand := by
  intro s t rest w hp h
  rw [step_cmd hp] at h
  obtain ⟨code, hits, hc, hres⟩ := launch_result h
  rw [hres, resultWord_opc, resultWord_code]
  exact ⟨rfl, resultWord_reserved_high _ _ _, resultWord_reserved_low _ _ _, hc⟩

/-- Settles O9: the fields of `State.reset`, lane by lane for the lanes. -/
theorem resetState : Obligations.ResetState :=
  ⟨rfl, rfl, rfl, rfl, rfl, rfl, rfl, fun i => Vector.getElem_replicate i.isLt, rfl, rfl, rfl, rfl⟩

/-- Settles O12: `step_read` at `MASKi` with and without a value, and `portWrite_mask`. -/
theorem maskRegistersAreReadOnly : Obligations.MaskRegistersAreReadOnly := by
  intro s rest i
  rw [← index_mask]
  refine ⟨fun hp => ⟨fun m hf => ?_, fun hf => ?_⟩, fun data hp => ?_⟩
  · have hv : regValue (.mask i) s = some (m.get i) := by simp [regValue, maskWord, hf]
    have hd : regDraws (.mask i) s = 0 := by simp [regDraws, State.inited, hf]
    rw [step_read hp hv, hd]
    rfl
  · exact ⟨_, maskWord i s, step_read hp rfl, rfl, ⟨rfl, ⟨rfl, rfl, rfl, rfl, rfl, rfl, rfl⟩, rfl, rfl, rfl⟩,
      fun _ => rfl, rfl⟩
  · rw [step_cons hp]
    exact portWrite_mask i data _

/-- Settles O15: `portWrite` at each register's index, and `step_read` for what it then holds. -/
theorem operandWritesStore : Obligations.OperandWritesStore := by
  intro s rest data
  refine ⟨fun hp => step_cons hp, fun hp => step_cons hp, fun hp => step_cons hp, fun hp => step_cons hp,
    fun hp => step_cons hp, fun i hp => ?_, fun q hq hp => ?_, fun i hp => ?_⟩
  · rw [step_cons hp, ← index_vlane]
    exact ⟨_, portWrite_vlane i data _, rfl, fun j => getElem_lanes_set s.lanes i j data⟩
  · simp only [List.mem_cons, List.not_mem_nil, or_false] at hq
    rcases hq with rfl | rfl | rfl | rfl | rfl
    · exact step_read (r := .opa) hp rfl
    · exact step_read (r := .opb) hp rfl
    · exact step_read (r := .addr) hp rfl
    · exact step_read (r := .count) hp rfl
    · exact step_read (r := .stride) hp rfl
  · rw [← index_vlane] at hp
    exact step_read (r := .vlane i) hp rfl

end Sys2Proof
end

section
/-! Bytes and elements (R64, R191): the number a list of bytes makes, and the bytes of an element in either order. -/

namespace Sys2Proof.Machine

theorem littleEndian_append (bs cs : List Byte) :
    littleEndian (bs ++ cs) = littleEndian bs + 2 ^ (8 * bs.length) * littleEndian cs := by
  induction bs with
  | nil => simp [littleEndian]
  | cons b bs ih =>
    simp only [List.cons_append, littleEndian, ih, List.length_cons]
    ring

theorem littleEndian_lt (bs : List Byte) : littleEndian bs < 2 ^ (8 * bs.length) := by
  induction bs with
  | nil => simp [littleEndian]
  | cons b bs ih =>
    have := b.isLt
    rw [littleEndian, List.length_cons, Nat.mul_succ, Nat.pow_add]
    omega

/-- An element of at most four bytes fits in a codepoint, so zero extension keeps its number. -/
theorem assemble_toNat {bs : List Byte} (h : bs.length ≤ 4) (be : Bool) :
    (assemble be bs).toNat = littleEndian (if be then bs.reverse else bs) := by
  refine Nat.mod_eq_of_lt (Nat.lt_of_lt_of_le (littleEndian_lt _) (Nat.pow_le_pow_right (by decide) ?_))
  cases be <;> simp <;> omega

/-- The `n` bytes of an element in memory order: the byte of weight `2^(8*k)` is the `k`-th of them from the front
(little-endian) or from the back (big-endian). -/
def elementBytes (n : Nat) (be : Bool) (c : Word) : List Byte :=
  (List.range n).map fun k => c.extractLsb' (8 * (if be then n - 1 - k else k)) 8

@[simp] theorem elementBytes_length (n : Nat) (be : Bool) (c : Word) : (elementBytes n be c).length = n := by
  simp [elementBytes]

/-- The bytes of one element in the two orders are each other's reverse. -/
theorem elementBytes_reverse (n : Nat) (c : Word) : (elementBytes n true c).reverse = elementBytes n false c := by
  refine List.ext_getElem (by simp) fun k hk _ => ?_
  have hk : k < n := by simpa using hk
  simp only [elementBytes, if_true, List.getElem_reverse, List.getElem_map, List.getElem_range, List.length_map,
    List.length_range, Bool.false_eq_true, if_false]
  rw [show n - 1 - (n - 1 - k) = k by omega]

theorem littleEndian_elementBytes (n : Nat) (c : Word) :
    littleEndian (elementBytes n false c) = c.toNat % 2 ^ (8 * n) := by
  induction n with
  | zero => simp [elementBytes, littleEndian, Nat.mod_one]
  | succ n ih =>
    have hsnoc : elementBytes (n + 1) false c = elementBytes n false c ++ [c.extractLsb' (8 * n) 8] := by
      simp [elementBytes, List.range_succ]
    rw [hsnoc, littleEndian_append, ih, elementBytes_length, Nat.mul_succ, Nat.pow_add, Nat.mod_mul]
    simp [littleEndian, BitVec.extractLsb'_toNat, Nat.shiftRight_eq_div_pow]

/-- Assembling the bytes of an element gives the element back, in either byte order (R64). -/
theorem assemble_elementBytes {n : Nat} {c : Word} (h : c.toNat < 2 ^ (8 * n)) (be : Bool) :
    assemble be (elementBytes n be c) = c := by
  have hle : littleEndian (elementBytes n false c) = c.toNat := by
    rw [littleEndian_elementBytes, Nat.mod_eq_of_lt h]
  cases be with
  | false => simp [assemble, hle]
  | true => simp [assemble, elementBytes_reverse, hle]

/-- A run of `k` groups of `n` bytes makes one element of each group. -/
theorem elementsOf_flatMap {n : Nat} {g : Nat → List Byte} (hg : ∀ i, (g i).length = n) (be : Bool) (k : Nat) :
    elementsOf n be k ((List.range k).flatMap g) = (List.range k).map fun i => assemble be (g i) := by
  induction k generalizing g with
  | zero => rfl
  | succ k ih =>
    simp only [List.range_succ_eq_map, List.flatMap_cons, List.flatMap_map, List.map_cons, List.map_map]
    rw [elementsOf_succ n be k _ _ (hg 0), ih fun i => hg (i + 1)]
    rfl

end Sys2Proof.Machine
end

section
/-! What adding codepoints does to the bits of the masks (R124, R154): `MasksAdd` of one codepoint, composed. -/

namespace Sys2Proof.Machine

/-- The bucket of a codepoint in a 32-bit leaf, as division and remainder (R121). -/
theorem bucket_toNat (s : Nat) (c : Word) : (bucket 32 s c).toNat = c.toNat / 2 ^ s % 32 := by
  have h : numBuckets 32 - 1 = 2 ^ 5 - 1 := rfl
  rw [bucket, quotient, h, BitVec.toNat_and, BitVec.toNat_ushiftRight, Nat.shiftRight_eq_div_pow]
  exact Nat.and_two_pow_sub_one_eq_mod _ 5

theorem maskAdds_leafAdd (s : Nat) (m c : Word) :
    MaskAdds (fun d => d = c) (fun d => d / 2 ^ s % 32) m (leafAdd 32 s m c) := by
  intro k hk
  have hbit : (maskFor 32 s c).getLsbD k = true ↔ c.toNat / 2 ^ s % 32 = k := by
    simp only [maskFor, BitVec.getLsbD_shiftLeft, BitVec.getLsbD_one, bucket_toNat, hk]
    simp
    omega
  simp [leafAdd, hbit]

theorem MaskAdds.refl (bk : Nat → Nat) (m : Word) : MaskAdds (fun _ => False) bk m m := by
  intro k hk
  simp

theorem MaskAdds.trans {p q : Word → Prop} {bk : Nat → Nat} {a b c : Word} (h : MaskAdds p bk a b)
    (h' : MaskAdds q bk b c) : MaskAdds (fun x => p x ∨ q x) bk a c := by
  intro k hk
  rw [h' k hk, h k hk]
  simp only [or_and_right, exists_or, or_assoc]

theorem MasksAdd.refl (m : Masks) : MasksAdd (fun _ => False) m m :=
  ⟨MaskAdds.refl _ _, MaskAdds.refl _ _, MaskAdds.refl _ _⟩

theorem MasksAdd.trans {p q : Word → Prop} {a b c : Masks} :
    MasksAdd p a b → MasksAdd q b c → MasksAdd (fun x => p x ∨ q x) a c
  | ⟨h0, h1, h2⟩, ⟨h0', h1', h2'⟩ => ⟨h0.trans h0', h1.trans h1', h2.trans h2'⟩

theorem MasksAdd.congr {p q : Word → Prop} {m m' : Masks} (h : MasksAdd p m m') (hpq : ∀ c, p c ↔ q c) :
    MasksAdd q m m' := by
  rwa [show q = p from funext fun c => propext (hpq c).symm]

/-- ADD's update sets exactly the three buckets of its codepoint (R154). -/
theorem Masks.add_masksAdd (m : Masks) (c : Word) : MasksAdd (fun d => d = c) m (m.add c) := by
  have h1 := maskAdds_leafAdd 0 m.m1 c
  simp only [Nat.pow_zero, Nat.div_one] at h1
  exact ⟨maskAdds_leafAdd 4 m.m0 c, h1, maskAdds_leafAdd 9 m.m2 c⟩

theorem Masks.foldl_add_masksAdd (m : Masks) (cs : List Word) : MasksAdd (fun c => c ∈ cs) m (cs.foldl Masks.add m) := by
  induction cs generalizing m with
  | nil => exact (MasksAdd.refl m).congr (by simp)
  | cons c cs ih => exact ((m.add_masksAdd c).trans (ih (m.add c))).congr (by simp)

end Sys2Proof.Machine
end

section
/-! An array command on a buffer: where it is held (R68), and which addresses it reads and bytes it logs (R66, R72). -/

namespace Sys2Proof.Machine

/-- The first unanswered address of a list, as a search: so it is unique. -/
theorem find?_unanswered_eq_some_iff {s : State} {l : List Word} {a : Word} :
    l.find? (fun x => !decide (Answered s x)) = some a ↔
      ∃ before after, l = before ++ a :: after ∧ (∀ x ∈ before, Answered s x) ∧ ¬ Answered s a := by
  simp only [List.find?_eq_some_iff_append, Bool.not_not, decide_eq_true_eq, Bool.not_eq_true', decide_eq_false_iff_not]
  exact ⟨fun ⟨ha, before, after, hl, hb⟩ => ⟨before, after, hl, hb, ha⟩,
    fun ⟨before, after, hl, hb, ha⟩ => ⟨ha, before, after, hl, hb⟩⟩

/-- An array command completes or is held: it is never without a meaning. -/
theorem addElements_ne_refused (opc : BitVec 4) (n : Nat) (be : Bool) (s : State) (r : Refusal) :
    addElements opc n be s ≠ .refused r := by
  intro h
  rcases whenInited_cases h with ⟨-, ho⟩ | ⟨m, -, ho⟩
  · cases ho
  · split at ho <;> cases ho

/-- An array command is held exactly at the first address it reads that is not answered (R68). -/
theorem addElements_fault_iff {opc : BitVec 4} {n : Nat} {be : Bool} {s : State} {a : Word} (hs : s.inited = true) :
    addElements opc n be s = .fault (.readUnanswered a) ↔
      ∃ before after, arrayAddresses n s = before ++ a :: after ∧ (∀ x ∈ before, Answered s x) ∧ ¬ Answered s a := by
  constructor
  · intro h
    obtain ⟨x, before, after, hx, held⟩ := addElements_fault h
    cases hx
    exact ⟨before, after, held⟩
  · rintro ⟨before, after, hl, hb, ha⟩
    cases h : addElements opc n be s with
    | refused r => exact absurd h (addElements_ne_refused _ _ _ _ r)
    | next t =>
      rcases addElements_next h with ⟨hf, -⟩ | ⟨m, bs, u, -, -, -, answered, -⟩
      · simp [State.inited, hf] at hs
      · exact absurd (answered a (by simp [hl])) ha
    | fault f =>
      obtain ⟨x, before', after', rfl, held⟩ := addElements_fault h
      have hx := find?_unanswered_eq_some_iff.mpr ⟨before', after', held⟩
      rw [find?_unanswered_eq_some_iff.mpr ⟨before, after, hl, hb, ha⟩] at hx
      cases hx
      rfl

theorem elemAddr_add_toNat (s : State) (i k : Nat) :
    (elemAddr s i + BitVec.ofNat 32 k).toNat = (s.addr.toNat + i * s.stride.toNat + k) % 2 ^ 32 := by
  simp [elemAddr, BitVec.toNat_add]

theorem arrayAddresses_length (n : Nat) (s : State) : (arrayAddresses n s).length = n * s.count.toNat := by
  simp [arrayAddresses, List.length_flatMap, Nat.mul_comm]

theorem mem_arrayAddresses {n : Nat} {s : State} {a : Word} :
    a ∈ arrayAddresses n s ↔ ∃ i < s.count.toNat, ∃ k < n, elemAddr s i + BitVec.ofNat 32 k = a := by
  simp [arrayAddresses]

/-- Where no other agent touches the addresses of a log, its bytes are the bytes the memory holds, in order (R66). -/
theorem LogFrom.lookup_eq {s : State} {l : List Word} {bs : List Byte} (h : LogFrom s (l.zip bs))
    (hlen : l.length = bs.length) (hu : ∀ a ∈ l, a.toNat ∉ s.contested) :
    l.map (fun a => s.mem.lookup a.toNat) = bs.map some := by
  refine List.ext_getElem (by simp [hlen]) fun j hj hj' => ?_
  simp only [List.length_map] at hj hj'
  have hp : (l[j], bs[j]) ∈ l.zip bs := List.mem_iff_getElem.mpr ⟨j, by simp [hj, hj'], by simp⟩
  simpa using h _ hp (hu _ (List.getElem_mem hj))

theorem contestedIn_eq_zero {s : State} {l : List Word} {bs : List Byte} (hu : ∀ a ∈ l, a.toNat ∉ s.contested) :
    contestedIn s (l.zip bs) = 0 := by
  refine List.countP_eq_zero.mpr fun p hp => ?_
  simpa using hu p.1 (List.of_mem_zip hp).1

end Sys2Proof.Machine
end

section
/-! Ordinary memory that holds the elements of a buffer (R66): what an array command ingests from it (R190). -/

namespace Sys2Proof

open Machine

section
variable {s : State} {n : Nat} {be : Bool} {f : Nat → Word} (h : HoldsElements s n be f)
include h

theorem HoldsElements.not_contested {a : Word} (ha : a ∈ arrayAddresses n s) : a.toNat ∉ s.contested := by
  obtain ⟨i, hi, k, hk, rfl⟩ := mem_arrayAddresses.mp ha
  rw [elemAddr_add_toNat]
  exact (h i k hi hk).1

theorem HoldsElements.bufferAnswered : BufferAnswered n s := by
  intro a ha
  obtain ⟨i, hi, k, hk, rfl⟩ := mem_arrayAddresses.mp ha
  rw [Answered, elemAddr_add_toNat, (h i k hi hk).2]
  rfl

/-- The memory holds the bytes of `f 0`, `f 1`, ... along the addresses of R72. -/
theorem HoldsElements.lookup_eq : (arrayAddresses n s).map (fun a => s.mem.lookup a.toNat) =
    ((List.range s.count.toNat).flatMap fun i => elementBytes n be (f i)).map some := by
  rw [arrayAddresses, List.map_flatMap, List.map_flatMap]
  refine List.flatMap_congr fun i hi => ?_
  rw [elementBytes, List.map_map, List.map_map]
  refine List.map_congr_left fun k hk => ?_
  simp only [Function.comp, elemAddr_add_toNat]
  exact (h i k (List.mem_range.mp hi) (List.mem_range.mp hk)).2

/-- Over ordinary memory an array command completes with `f 0` to `f (COUNT - 1)` added, and draws nothing (R190). -/
theorem HoldsElements.addElements_ingests (opc : BitVec 4) {m : Masks} (hf : s.filter = some m)
    (hb : ∀ j, j < s.count.toNat → (f j).toNat < 2 ^ (8 * n)) :
    ∃ t, addElements opc n be s = .next t ∧
      t.filter = some (((List.range s.count.toNat).map f).foldl Masks.add m) ∧ t.draws = s.draws := by
  obtain ⟨t, ht⟩ := addElements_answered (opc := opc) (be := be) h.bufferAnswered
  refine ⟨t, ht, ?_⟩
  rcases addElements_next ht with ⟨hn, -⟩ | ⟨m', bs, u, hf', hlen, reads, -, log, rfl⟩
  · simp [hf] at hn
  obtain rfl : m = m' := by simpa [hf] using hf'
  have hu := fun a => h.not_contested (a := a)
  have bytes : bs = (List.range s.count.toNat).flatMap fun i => elementBytes n be (f i) := by
    have := (log.lookup_eq (by rw [arrayAddresses_length, hlen]) hu).symm.trans h.lookup_eq
    exact List.map_injective_iff.mpr (Option.some_injective _) this
  have elements : elementsOf n be s.count.toNat bs = (List.range s.count.toNat).map f := by
    rw [bytes, elementsOf_flatMap (by simp)]
    exact List.map_congr_left fun j hj => assemble_elementBytes (hb j (List.mem_range.mp hj)) be
  refine ⟨by rw [mutated_filter, elements], ?_⟩
  rw [mutated_draws, reads, contestedIn_eq_zero hu]
  rfl

end

end Sys2Proof
end

section
/-! The statements about memory: the elements that bytes make, and the array commands over a buffer. -/

namespace Sys2Proof

open Machine

theorem arrayCommandIngests {i : Instr} {n : Nat} {be : Bool} (hi : arrayShape i = some (n, be)) :
    ArrayCommandIngests i n be := by
  intro s m f hf h hb
  obtain ⟨t, ht, hfilter, hdraws⟩ := h.addElements_ingests (opcField (encode i)) hf hb
  refine ⟨t, _, by rw [exec_array hi, ht], hfilter, ?_, hdraws⟩
  exact (m.foldl_add_masksAdd _).congr fun c => by simp [eq_comm]

theorem arrayCommandHeld {i : Instr} {n : Nat} {be : Bool} (hi : arrayShape i = some (n, be)) :
    ArrayCommandHeld i n := by
  intro s a hs
  rw [exec_array hi]
  exact addElements_fault_iff hs

/-- Settles O24, one argument for every command with an element size and a byte order. -/
theorem arrayCommandsIngestOrdinaryBuffers : Obligations.ArrayCommandsIngestOrdinaryBuffers := fun _ =>
  ⟨arrayCommandIngests rfl, arrayCommandIngests rfl, arrayCommandIngests rfl, arrayCommandIngests rfl,
    arrayCommandIngests rfl, arrayCommandIngests rfl⟩

/-- Settles O25, one argument for every command with an element size. -/
theorem arrayCommandsHeldByUnansweredRead : Obligations.ArrayCommandsHeldByUnansweredRead := fun be =>
  ⟨arrayCommandHeld (be := be) rfl, arrayCommandHeld (be := be) rfl, arrayCommandHeld (be := be) rfl,
    arrayCommandHeld (be := be) rfl, arrayCommandHeld (be := be) rfl, arrayCommandHeld (be := be) rfl⟩

/-- Settles O23: at most four bytes make the number `littleEndian` gives, and its weights are written out. -/
theorem elementsAssembleByWeight : Obligations.ElementsAssembleByWeight := by
  intro b₀ b₁ b₂ b₃
  simp [assemble_toNat, littleEndian]
  omega

end Sys2Proof
end

section
/-! The decoder against the encoder and against R96: the word of every command, and the words that have a command (R91,
R93, R96). -/

namespace Sys2Proof.Machine

@[simp] theorem decode_encode (i : Instr) : decode (encode i) = .ok i := by
  cases i with
  | init | add | addRange | query | vquery => rfl
  | addArrayB be | addArrayH be | addArrayW be => cases be <;> rfl
  | addSortedArrayB be | addSortedArrayH be | addSortedArrayW be => cases be <;> rfl

theorem decode_eq_ok_iff {w : Word} {i : Instr} : decode w = .ok i ↔ w = encode i := by
  constructor
  · exact eq_encode_of_decode
  · rintro rfl
    exact decode_encode i

/-- `w[6:4]` is `BE` above `ESZ` (R91). -/
theorem extractLsb'_4_3_eq_zero_iff (w : Word) : w.extractLsb' 4 3 = 0 ↔ eszField w = 0 ∧ beField w = false := by
  have hbe : beField w = decide (w.toNat / 2 ^ 6 % 2 = 1) := Nat.testBit_eq_decide_div_mod_eq
  simp only [hbe, eszField, BitVec.toNat_eq, BitVec.extractLsb'_toNat, Nat.shiftRight_eq_div_pow, BitVec.ofNat_eq_ofNat,
    BitVec.toNat_ofNat, decide_eq_false_iff_not]
  omega

/-- A command that is no array command needs `ESZ` and `BE` clear (R96 (c)). -/
theorem exists_plainForm_iff (w : Word) (i : Instr) : (∃ j, plainForm w i = .ok j) ↔ w.extractLsb' 4 3 = 0 := by
  rw [extractLsb'_4_3_eq_zero_iff, plainForm]
  split
  · next h => simp [h]
  · next h => exact iff_of_false (by simp) h

/-- An array command needs an element size other than the reserved one (R96 (c)). -/
theorem exists_arrayForm_iff (w : Word) (b h wd : Bool → Instr) :
    (∃ j, arrayForm w b h wd = .ok j) ↔ w.extractLsb' 4 2 ≠ 3 := by
  change _ ↔ eszField w ≠ 3
  have hesz : ∀ e : BitVec 2, e = 0 ∨ e = 1 ∨ e = 2 ∨ e = 3 := by decide
  rcases hesz (eszField w) with he | he | he | he <;> simp [arrayForm, he]

/-- The decoder checks (a), (b) and (c) of R96, in that order. -/
theorem exists_decode_iff (w : Word) : (∃ i, decode w = .ok i) ↔
    zeroField w = 0 ∧ (1 ≤ (opcField w).toNat ∧ (opcField w).toNat ≤ 7) ∧
      (if opcField w = 4 ∨ opcField w = 5 then w.extractLsb' 4 2 ≠ 3 else w.extractLsb' 4 3 = 0) := by
  by_cases hz : zeroField w = 0
  · have hopc : ∀ o : BitVec 4, 7 < o.toNat ∨
        o = 0 ∨ o = 1 ∨ o = 2 ∨ o = 3 ∨ o = 4 ∨ o = 5 ∨ o = 6 ∨ o = 7 := by decide
    rw [decode, if_neg (not_not.mpr hz)]
    rcases hopc (opcField w) with hgt | ho
    · have hne : ∀ k : BitVec 4, k.toNat ≤ 7 → opcField w ≠ k := by
        rintro k hk rfl
        omega
      simp [hne, hgt]
    · rcases ho with ho | ho | ho | ho | ho | ho | ho | ho <;>
        simp [ho, hz, exists_plainForm_iff, exists_arrayForm_iff]
  · rw [decode, if_pos hz]
    exact iff_of_false (by simp) fun h => hz h.1

theorem launch_of_decode {w : Word} {i : Instr} (h : decode w = .ok i) (s : State) : launch w s = exec i s := by
  rw [launch, h]

/-- A word without a command is refused with `E_BADCMD` (R98). -/
theorem launch_of_not_decode {w : Word} (h : ∀ i, decode w ≠ .ok i) (s : State) :
    launch w s = .next (report .badcmd (opcField w) s) := by
  cases hd : decode w with
  | error e => rw [launch, hd]
  | ok i => exact absurd hd (h i)

/-- All the commands, each with every value of its operand. -/
def allCommands : List Instr :=
  [.init, .add, .addRange, .query, .vquery,
    .addArrayB false, .addArrayH false, .addArrayW false, .addArrayB true, .addArrayH true, .addArrayW true,
    .addSortedArrayB false, .addSortedArrayH false, .addSortedArrayW false,
    .addSortedArrayB true, .addSortedArrayH true, .addSortedArrayW true]

theorem mem_allCommands (i : Instr) : i ∈ allCommands := by
  cases i with
  | init | add | addRange | query | vquery => decide
  | addArrayB be | addArrayH be | addArrayW be => cases be <;> decide
  | addSortedArrayB be | addSortedArrayH be | addSortedArrayW be => cases be <;> decide

/-- The decoder's graph is the list of the commands with their words. -/
theorem decode_eq_ok_iff_mem {w : Word} {i : Instr} :
    decode w = .ok i ↔ (w, i) ∈ allCommands.map fun j => (encode j, j) := by
  rw [decode_eq_ok_iff, List.mem_map]
  constructor
  · rintro rfl
    exact ⟨i, mem_allCommands i, rfl⟩
  · rintro ⟨j, -, h⟩
    obtain ⟨rfl, rfl⟩ := Prod.mk.inj h
    rfl

end Sys2Proof.Machine
end

section
/-! The opcode table against the encoder: the words that a row's mask and match accept (R93). -/

namespace Sys2Proof.Machine

/-- The bits a row does not compare: none, or the field `BE` (R91). -/
theorem not_maskBits_of_mem {r : OpcodeRow} (hr : r ∈ opcodeRows) :
    ~~~r.maskBits = 0 ∨ ~~~r.maskBits = BitVec.twoPow 32 6 := by
  revert r
  decide

/-- A word that a row accepts is the row's match, with the bits outside the mask all clear or all set. -/
theorem eq_of_accepts {r : OpcodeRow} (hr : r ∈ opcodeRows) {w : Word} (h : r.accepts w = true) :
    w = r.matchBits ∨ w = r.matchBits ||| ~~~r.maskBits := by
  have hm : w &&& r.maskBits = r.matchBits := by simpa [OpcodeRow.accepts] using h
  have hw : w = r.matchBits ||| (w &&& ~~~r.maskBits) := by
    rw [← hm]
    ext k hk
    cases hk' : r.maskBits[k] <;> simp [hk']
  have hfree : w &&& ~~~r.maskBits = 0 ∨ w &&& ~~~r.maskBits = ~~~r.maskBits := by
    rcases not_maskBits_of_mem hr with hn | hn <;> rw [hn]
    · exact .inl BitVec.and_zero
    · rw [BitVec.and_twoPow]
      split
      · exact .inr rfl
      · exact .inl rfl
  rcases hfree with hf | hf <;> rw [hf] at hw
  · exact .inl (by simpa using hw)
  · exact .inr hw

/-- Both words that a row can accept are words of commands. -/
theorem exists_encode_of_mem {r : OpcodeRow} (hr : r ∈ opcodeRows) :
    (∃ i ∈ allCommands, r.matchBits = encode i) ∧
      ∃ i ∈ allCommands, r.matchBits ||| ~~~r.maskBits = encode i := by
  revert r
  decide

theorem exists_encode_of_accepts {r : OpcodeRow} (hr : r ∈ opcodeRows) {w : Word} (h : r.accepts w = true) :
    ∃ i, w = encode i := by
  obtain ⟨⟨i, -, hi⟩, j, -, hj⟩ := exists_encode_of_mem hr
  rcases eq_of_accepts hr h with rfl | rfl
  · exact ⟨i, hi⟩
  · exact ⟨j, hj⟩

/-- A row accepts the words of the commands with its mnemonic, among all commands. -/
theorem accepts_encode_iff {r : OpcodeRow} (hr : r ∈ opcodeRows) (i : Instr) :
    r.accepts (encode i) = true ↔ i.mnemonic = r.mnemonic := by
  have key : ∀ r ∈ opcodeRows, ∀ i ∈ allCommands, (r.accepts (encode i) = true ↔ i.mnemonic = r.mnemonic) := by
    decide
  exact key r hr i (mem_allCommands i)

theorem accepts_iff {r : OpcodeRow} (hr : r ∈ opcodeRows) (w : Word) :
    r.accepts w = true ↔ ∃ i, decode w = .ok i ∧ i.mnemonic = r.mnemonic := by
  constructor
  · intro h
    obtain ⟨i, rfl⟩ := exists_encode_of_accepts hr h
    exact ⟨i, decode_encode i, (accepts_encode_iff hr i).mp h⟩
  · rintro ⟨i, hi, hm⟩
    obtain rfl := eq_encode_of_decode hi
    exact (accepts_encode_iff hr i).mpr hm

theorem mnemonic_nodup : (opcodeRows.map OpcodeRow.mnemonic).Nodup := by decide

end Sys2Proof.Machine
end

section
/-! One-byte elements: the two byte orders are one (R93). -/

namespace Sys2Proof.Machine

theorem assemble_singleton (be : Bool) (b : Byte) : assemble be [b] = assemble false [b] := by
  cases be <;> rfl

theorem fetchElem_one (be : Bool) (ea : Word) (s : State) : fetchElem 1 be ea s = fetchElem 1 false ea s := by
  unfold fetchElem
  cases hr : memRead 1 ea s with
  | error f => rfl
  | ok p =>
    obtain ⟨bs, t⟩ := p
    obtain ⟨b, rfl⟩ := List.length_eq_one_iff.mp (memRead_ok hr).1
    simp only [assemble_singleton be]

theorem arrayLoop_one (be : Bool) (k i : Nat) (m : Masks) (s : State) :
    arrayLoop 1 be k i m s = arrayLoop 1 false k i m s := by
  induction k generalizing i m s with
  | zero => rfl
  | succ k ih => simp only [arrayLoop, fetchElem_one be, ih]

theorem addElements_one (opc : BitVec 4) (be : Bool) (s : State) :
    addElements opc 1 be s = addElements opc 1 false s := by
  simp only [addElements, arrayLoop_one be]

end Sys2Proof.Machine
end

section
/-! The scalar query and the call that makes it (R100, R129, R210). -/

namespace Sys2Proof.Machine

/-- A leaf answers the mask bit of the codepoint's bucket (R129). -/
theorem leafMayHave_eq (s : Nat) (m c : Word) : leafMayHave 32 s m c = m.getLsbD (c.toNat / 2 ^ s % 32) := by
  simp [leafMayHave, bucket_toNat]

/-- ROOT answers 1 exactly where every leaf's mask holds the bucket (R154). -/
theorem Masks.mayHave_iff (m : Masks) (c : Word) : m.mayHave c = true ↔
    m.m0.getLsbD (c.toNat / 16 % 32) = true ∧ m.m1.getLsbD (c.toNat % 32) = true ∧
      m.m2.getLsbD (c.toNat / 512 % 32) = true := by
  simp [Masks.mayHave, Masks.hasTail, Masks.has0, Masks.has1, Masks.has2, leafMayHave_eq, Config.shift0, Config.shift2]

theorem exec_query_inited {s : State} {m : Masks} (hf : s.filter = some m) :
    exec .query s = .next { s with result := resultWord 6 0 (queryHits m s.opa) } :=
  whenInited_some hf _

/-- QUERY written to `CMD` while the masks hold a value (R210). -/
theorem step_query {s : State} {m : Masks} {rest : List HostEvent} (hf : s.filter = some m)
    (hp : s.port = writeCommand 0x06 :: rest) :
    step s = .next { s with
      port := rest, answer := some .writeOk, result := resultWord 6 0 (queryHits m s.opa) } := by
  rw [step_cmd hp, launch_of_decode (i := .query) rfl, exec_query_inited (m := m)]
  exact hf

/-- `HIT` of a QUERY (R33, R210). -/
theorem queryResult_hit (m : Masks) (c : Word) : (resultWord 6 0 (queryHits m c)).getLsbD 0 = m.mayHave c := by
  rw [resultWord_hit _ _ _ _ (by decide), queryHits, hitBits_hit]

/-- The three transactions of `may_have c` while `INITED = 1` (R100): the operand is stored, QUERY runs, and the read
answers its `RESULT`. -/
theorem run_mayHave {s : State} {m : Masks} {c : Word} {rest : List HostEvent} (hf : s.filter = some m)
    (hp : s.port = Pseudo.expand (.mayHave c) ++ rest) :
    core.run 3 s = .next { s with
      port := rest, opa := c, result := resultWord 6 0 (queryHits m c),
      answer := some (.readOk (resultWord 6 0 (queryHits m c))) } := by
  have load : step s = .next { s with
      port := writeCommand 0x06 :: .rd (Reg.index .result) :: rest, answer := some .writeOk, opa := c } := step_cons hp
  refine (run_next load 2).trans ((run_next (step_query (m := m) ?_ rfl) 1).trans
    (run_next (step_read (r := .result) ?_ rfl) 0))
  · exact hf
  · rfl

end Sys2Proof.Machine
end

section
/-! The statements about the encoding, the step that runs a command, and the call of a query. -/

namespace Sys2Proof

open Machine

/-- Settles O2: `decode_encode` one way, `eq_encode_of_decode` the other. -/
theorem decodeInvertsEncode : Obligations.DecodeInvertsEncode := fun _ _ => decode_eq_ok_iff

/-- Settles O3: `exists_decode_iff` for the words, and the report of `E_BADCMD` for the refusal. -/
theorem decoderAcceptsExactlyLegalWords : Obligations.DecoderAcceptsExactlyLegalWords := by
  intro w
  refine ⟨exists_decode_iff w, fun s rest hp hw => ⟨_, (step_cmd hp).trans (launch_of_not_decode hw _), ?_⟩⟩
  refine ⟨resultWord_code _ _ _, ?_, rfl, rfl, rfl⟩
  simp [CmdError.errBit_getLsbD, CmdError.code]

/-- Settles O4: the list is that of all commands with their words, and a one-byte element reads the same both ways. -/
theorem legalWordsAreTheSeventeen : Obligations.LegalWordsAreTheSeventeen :=
  ⟨fun _ _ => decode_eq_ok_iff_mem, fun s => ⟨addElements_one 4 true s, addElements_one 5 true s⟩⟩

/-- Settles O5: a word of two rows has one command, so the rows have one mnemonic. -/
theorem tableRowsMatchDecoder : Obligations.TableRowsMatchDecoder := by
  refine ⟨fun r hr w => accepts_iff hr w, fun r hr r' hr' w h h' => ?_⟩
  obtain ⟨i, hi, hm⟩ := (accepts_iff hr w).mp h
  obtain ⟨j, hj, hm'⟩ := (accepts_iff hr' w).mp h'
  obtain rfl : i = j := Except.ok.inj (hi.symm.trans hj)
  exact List.inj_on_of_nodup_map mnemonic_nodup hr hr' (hm.symm.trans hm')

/-- Settles O34: `run_mayHave` gives the answer, and its `HIT` is ROOT's answer on the masks. -/
theorem mayHaveCallReadsAnswer : Obligations.MayHaveCallReadsAnswer := by
  intro s m c rest hf hp
  refine ⟨_, _, run_mayHave hf hp, rfl, rfl, hf, ?_⟩
  rw [queryResult_hit, Masks.mayHave_iff]

/-- Settles O1, by running the decoder on the fifteen words. -/
theorem specWordsDecode : Obligations.SpecWordsDecode := by
  unfold Obligations.SpecWordsDecode
  decide

/-- Settles O6: a write of `CMD` launches its word, and a word of a command runs that command. -/
theorem stepRunsDecodedCommand : Obligations.StepRunsDecodedCommand := fun _ _ _ _ hp hi =>
  (step_cmd hp).trans (launch_of_decode hi _)

end Sys2Proof
end

section
/-! The bucket of a codepoint in any legal leaf, and its single-bit mask (R120, R121, R122). -/

namespace Sys2Proof.Machine

/-- A legal width is a power of two, so a leaf has one bucket per mask bit (R120). -/
theorem numBuckets_width (l : Leaf) : numBuckets l.width = l.width := by
  rcases l.legal.1 with h | h | h | h <;> rw [h] <;> rfl

theorem width_le (l : Leaf) : l.width ≤ 128 := by
  have := l.legal.1
  omega

theorem width_pos (l : Leaf) : 0 < l.width := by
  have := l.legal.1
  omega

@[simp] theorem quotient_toNat (s : Nat) (c : Word) : (quotient s c).toNat = c.toNat / 2 ^ s := by
  rw [quotient, BitVec.toNat_ushiftRight, Nat.shiftRight_eq_div_pow]

/-- The mask `N - 1` of R121 as a number. -/
theorem bucketMask_toNat (l : Leaf) :
    (BitVec.ofNat 32 (numBuckets l.width - 1)).toNat = numBuckets l.width - 1 := by
  have := width_le l
  rw [BitVec.toNat_ofNat, Nat.mod_eq_of_lt]
  rw [numBuckets_width]
  omega

/-- The bucket of a codepoint in any legal leaf, as division and remainder (R121). -/
theorem bucket_toNat_leaf (l : Leaf) (c : Word) :
    (bucket l.width l.shift c).toNat = c.toNat / 2 ^ l.shift % l.width := by
  calc (bucket l.width l.shift c).toNat
    _ = c.toNat / 2 ^ l.shift &&& (numBuckets l.width - 1) := by
      rw [bucket, BitVec.toNat_and, quotient_toNat, bucketMask_toNat]
    _ = c.toNat / 2 ^ l.shift % numBuckets l.width := Nat.and_two_pow_sub_one_eq_mod _ _
    _ = c.toNat / 2 ^ l.shift % l.width := by rw [numBuckets_width]

theorem maskFor_eq_twoPow (l : Leaf) (c : Word) :
    maskFor l.width l.shift c = BitVec.twoPow l.width (c.toNat / 2 ^ l.shift % l.width) := by
  rw [← bucket_toNat_leaf]
  rfl

end Sys2Proof.Machine
end

section
/-! The run arithmetic of `leaf_add_range` (R125): the saturation test, and the bits of the run between two single-bit
masks. -/

namespace Sys2Proof.Machine

/-- The saturation test compares the distance of the unmasked quotients with `N - 1` (R125, C1). -/
theorem bucketMask_le_sub_iff (l : Leaf) {a b : Word} (hab : a ≤ b) :
    BitVec.ofNat 32 (numBuckets l.width - 1) ≤ quotient l.shift b - quotient l.shift a ↔
      l.width - 1 ≤ b.toNat / 2 ^ l.shift - a.toNat / 2 ^ l.shift := by
  have hq : quotient l.shift a ≤ quotient l.shift b := by
    rw [BitVec.le_def, quotient_toNat, quotient_toNat]
    exact Nat.div_le_div_right hab
  rw [BitVec.le_def, bucketMask_toNat, numBuckets_width, BitVec.toNat_sub_of_le hq, quotient_toNat, quotient_toNat]

theorem leafAddRange_saturated (l : Leaf) (m : BitVec l.width) {a b : Word} (hab : a ≤ b)
    (hd : l.width - 1 ≤ b.toNat / 2 ^ l.shift - a.toNat / 2 ^ l.shift) :
    leafAddRange l.width l.shift m a b = BitVec.allOnes l.width :=
  if_pos ((bucketMask_le_sub_iff l hab).mpr hd)

theorem leafAddRange_run (l : Leaf) (m : BitVec l.width) {a b : Word} (hab : a ≤ b)
    (hd : b.toNat / 2 ^ l.shift - a.toNat / 2 ^ l.shift < l.width - 1) :
    leafAddRange l.width l.shift m a b =
      m ||| runOf l.width (BitVec.twoPow l.width (a.toNat / 2 ^ l.shift % l.width))
        (BitVec.twoPow l.width (b.toNat / 2 ^ l.shift % l.width)) := by
  rw [← maskFor_eq_twoPow, ← maskFor_eq_twoPow]
  exact if_neg (mt (bucketMask_le_sub_iff l hab).mp (by omega))

/-- The borrow of R125 compares the buckets. -/
theorem twoPow_lt_twoPow_iff {w i j : Nat} (hi : i < w) (hj : j < w) :
    BitVec.twoPow w i < BitVec.twoPow w j ↔ i < j := by
  rw [BitVec.lt_def, BitVec.toNat_twoPow_of_lt hi, BitVec.toNat_twoPow_of_lt hj,
    Nat.pow_lt_pow_iff_right (by decide)]

theorem twoPow_eq_ofNat (w i : Nat) : BitVec.twoPow w i = BitVec.ofNat w (2 ^ i) :=
  BitVec.eq_of_toNat_eq (by rw [BitVec.toNat_twoPow, BitVec.toNat_ofNat])

theorem twoPow_add_self (w i : Nat) : BitVec.twoPow w i + BitVec.twoPow w i = BitVec.ofNat w (2 ^ (i + 1)) := by
  rw [twoPow_eq_ofNat, ← BitVec.ofNat_add, Nat.pow_succ, Nat.mul_two]

/-- Without wrap the run is `2^(bb+1) - 2^ba`. -/
theorem runOf_of_le {w ba bb : Nat} (h : ba ≤ bb) (hb : bb < w) :
    runOf w (BitVec.twoPow w ba) (BitVec.twoPow w bb) = BitVec.ofNat w (2 ^ (bb + 1) - 2 ^ ba) := by
  have hborrow : borrowOf w (BitVec.twoPow w ba) (BitVec.twoPow w bb) = 0 :=
    if_neg (by rw [twoPow_lt_twoPow_iff hb (by omega)]; omega)
  rw [runOf, hborrow, sub_zero, ← add_sub_assoc, twoPow_add_self, twoPow_eq_ofNat,
    BitVec.ofNat_sub_ofNat_of_le _ _ (Nat.pow_lt_pow_right (by decide) (by omega))
      (Nat.pow_le_pow_right (by decide) (by omega))]

/-- With wrap the borrow makes the run the complement of the gap `2^ba - 2^(bb+1)`. -/
theorem runOf_of_lt {w ba bb : Nat} (h : bb < ba) (ha : ba < w) :
    runOf w (BitVec.twoPow w ba) (BitVec.twoPow w bb) = ~~~BitVec.ofNat w (2 ^ ba - 2 ^ (bb + 1)) := by
  have hborrow : borrowOf w (BitVec.twoPow w ba) (BitVec.twoPow w bb) = 1#w :=
    if_pos ((twoPow_lt_twoPow_iff (by omega) ha).mpr h)
  rw [runOf, hborrow, ← add_sub_assoc, twoPow_add_self, BitVec.not_eq_neg_add,
    ← BitVec.ofNat_sub_ofNat_of_le _ _ (Nat.pow_lt_pow_right (by decide) (by omega))
      (Nat.pow_le_pow_right (by decide) h), twoPow_eq_ofNat, neg_sub]

/-- `2^j - 2^i` is the bits from `i` up to below `j`. -/
theorem testBit_two_pow_sub_two_pow {i j : Nat} (h : i ≤ j) (k : Nat) :
    (2 ^ j - 2 ^ i).testBit k = decide (i ≤ k ∧ k < j) := by
  have hmul : 2 ^ j - 2 ^ i = 2 ^ i * (2 ^ (j - i) - 1) := by
    rw [Nat.mul_sub, ← Nat.pow_add, Nat.add_sub_cancel' h, Nat.mul_one]
  rw [hmul, Nat.testBit_two_pow_mul, Nat.testBit_two_pow_sub_one, ← Bool.decide_and, decide_eq_decide]
  omega

/-- Without wrap the run is the bits `ba` to `bb` (R126). -/
theorem runOf_getLsbD_of_le {w ba bb k : Nat} (h : ba ≤ bb) (hb : bb < w) (hk : k < w) :
    (runOf w (BitVec.twoPow w ba) (BitVec.twoPow w bb)).getLsbD k = decide (ba ≤ k ∧ k ≤ bb) := by
  rw [runOf_of_le h hb, BitVec.getLsbD_ofNat, testBit_two_pow_sub_two_pow (by omega), decide_eq_true hk,
    Bool.true_and, decide_eq_decide, Nat.lt_succ_iff]

/-- With wrap the run is every bit but those between `bb` and `ba` (R126). -/
theorem runOf_getLsbD_of_lt {w ba bb k : Nat} (h : bb < ba) (ha : ba < w) (hk : k < w) :
    (runOf w (BitVec.twoPow w ba) (BitVec.twoPow w bb)).getLsbD k = decide (ba ≤ k ∨ k ≤ bb) := by
  rw [runOf_of_lt h ha, BitVec.getLsbD_not, BitVec.getLsbD_ofNat, testBit_two_pow_sub_two_pow h, decide_eq_true hk,
    Bool.true_and, Bool.true_and, ← decide_not, decide_eq_decide]
  omega

/-- Two quotients at most `W - 2` apart whose buckets wrap leave a bucket free between them (R126). -/
theorem wrapped_buckets_gap (l : Leaf) {p q : Nat} (hpq : p ≤ q) (hd : q - p < l.width - 1)
    (h : q % l.width < p % l.width) : q % l.width + 2 ≤ p % l.width := by
  rcases l.legal.1 with hw | hw | hw | hw <;> rw [hw] at hd h ⊢ <;> omega

end Sys2Proof.Machine
end

section
/-! The lane datapath against the scalar loop (R130, R131, R212). -/

namespace Sys2Proof.Machine

/-- What one lane computes: its single bit AND the broadcast mask (R130). -/
def laneAnd (s : Nat) (m c : Word) : Word := (1 : Word) <<< ((c >>> s) &&& (31 : Word)).toNat &&& m

theorem laneHit_iff (s : Nat) (m c : Word) : laneHit s m c = true ↔ laneAnd s m c ≠ 0 := bne_iff_ne

/-- The lane's index is the scalar bucket, so its AND is that bit of the mask. -/
theorem laneAnd_eq (s : Nat) (m c : Word) :
    laneAnd s m c = if leafMayHave 32 s m c then BitVec.twoPow 32 (bucket 32 s c).toNat else 0 := by
  rw [leafMayHave_eq, ← bucket_toNat]
  exact BitVec.twoPow_and m _

/-- One lane gives the scalar answer (R131). -/
theorem laneHit_eq (s : Nat) (m c : Word) : laneHit s m c = leafMayHave 32 s m c := by
  have hbit : BitVec.twoPow 32 (bucket 32 s c).toNat ≠ 0#32 := by
    have hlt : (bucket 32 s c).toNat < 32 := by
      rw [bucket_toNat]
      omega
    simp [BitVec.toNat_eq, BitVec.toNat_twoPow_of_lt hlt]
  rw [Bool.eq_iff_iff, laneHit_iff, laneAnd_eq]
  cases leafMayHave 32 s m c with
  | false => simp
  | true => simpa using hbit

theorem laneHits_eq (s : Nat) (m : Word) (cs : Vector Word 8) : laneHits s m cs = mapLanes (leafMayHave 32 s m) cs :=
  congrArg (mapLanes · cs) (funext (laneHit_eq s m))

/-- The 256-bit vector is the lanes' ANDs side by side, so it is zero exactly when all of them are (R25, R130). -/
theorem laneVector_eq_zero_iff (s : Nat) (m : Word) (cs : Vector Word 8) :
    laneVector s m cs = 0 ↔ ∀ i : Fin 8, laneAnd s m cs[i] = 0 := by
  have hv : laneVector s m cs = laneAnd s m cs[7] ++ laneAnd s m cs[6] ++ laneAnd s m cs[5] ++ laneAnd s m cs[4] ++
    laneAnd s m cs[3] ++ laneAnd s m cs[2] ++ laneAnd s m cs[1] ++ laneAnd s m cs[0] := rfl
  simp only [hv, BitVec.toNat_eq, append_toNat, Fin.forall_fin_succ]
  simp
  omega

theorem anyLane_laneHits_iff (s : Nat) (m : Word) (cs : Vector Word 8) :
    anyLane (laneHits s m cs) = true ↔ laneVector s m cs ≠ 0 := by
  simp only [anyLane_iff, laneHits, mapLanes_get, laneHit_iff, ne_eq, laneVector_eq_zero_iff, not_forall]

theorem andLanes_mapLanes (f g : Word → Bool) (cs : Vector Word 8) :
    andLanes (mapLanes f cs) (mapLanes g cs) = mapLanes (fun c => f c && g c) cs := rfl

theorem batchQueryLanes_eq (m : Masks) (cs : Vector Word 8) : batchQueryLanes m cs = batchQuery m cs := by
  simp only [batchQueryLanes, laneHits_eq, andLanes_mapLanes]
  rfl

theorem exec_vquery_vecEn {s t : State} (h : exec .vquery s = .next t) (b : Bool) :
    exec .vquery { s with vecEn := b } = .next { t with vecEn := b } := by
  rcases whenInited_cases h with ⟨hf, ho⟩ | ⟨m, hf, ho⟩
  · obtain rfl := Host.Outcome.next.inj ho
    exact whenInited_none (s := { s with vecEn := b }) hf _
  · obtain rfl := Host.Outcome.next.inj ho
    exact whenInited_some (s := { s with vecEn := b }) hf _

end Sys2Proof.Machine
end

section
/-! The statements about the leaf functions: buckets, runs, and the two datapaths of the batch query. -/

namespace Sys2Proof

open Machine

/-- Settles O50: the single-bit mask is `2^bucket`, and the bucket is below the width. -/
theorem maskForSetsExactlyItsBucket : Obligations.MaskForSetsExactlyItsBucket := by
  intro l c
  refine ⟨bucket_toNat_leaf l c, fun k => ?_⟩
  have hlt := Nat.mod_lt (c.toNat / 2 ^ l.shift) (width_pos l)
  rw [maskFor_eq_twoPow, BitVec.getLsbD_twoPow, bucket_toNat_leaf, decide_eq_true hlt, Bool.true_and,
    decide_eq_decide, eq_comm]

/-- Settles O51: the saturation test, and the bits of the run without and with wrap. -/
theorem runArithmeticCases : Obligations.RunArithmeticCases := by
  intro l m a b hab d ba bb
  have ha : ba < l.width := Nat.mod_lt _ (width_pos l)
  have hb : bb < l.width := Nat.mod_lt _ (width_pos l)
  refine ⟨leafAddRange_saturated l m hab, fun hd h k hk => ?_, fun hd h => ⟨?_, fun k hk => ?_⟩⟩
  · rw [leafAddRange_run l m hab hd, BitVec.getLsbD_or, runOf_getLsbD_of_le h hb hk]
  · exact wrapped_buckets_gap l (Nat.div_le_div_right hab) hd h
  · rw [leafAddRange_run l m hab hd, BitVec.getLsbD_or, runOf_getLsbD_of_lt h ha hk]

/-- Settles O32: each lane's AND is the scalar bucket's mask bit, and the vector is zero when every lane's is. -/
theorem laneDatapathAgrees : Obligations.LaneDatapathAgrees := by
  refine ⟨fun s m cs => ⟨laneHits_eq s m cs, fun i => ?_, anyLane_laneHits_iff s m cs⟩, batchQueryLanes_eq,
    fun s t b h => exec_vquery_vecEn h b⟩
  rw [laneHits_eq, mapLanes_get]

end Sys2Proof
end

section
/-! The tree `Comb(L0, Comb(L1, L2))` of R154 against the three masks: what each operation of the tree is on them. -/

namespace Sys2Proof.Machine

/-- INIT reaches every leaf of the tree (R151). -/
theorem Masks.root_cleared (m : Masks) : Masks.cleared.root = m.root.cleared := rfl

theorem Masks.root_add (m : Masks) (c : Word) : (m.add c).root = m.root.add c := rfl

theorem Masks.root_addRange (m : Masks) (a b : Word) : (m.addRange a b).root = m.root.addRange a b := rfl

/-- The tree hands the whole list to each leaf in turn, the element loop each element to all the leaves: the masks are
the same (R152, R190). -/
theorem Masks.root_foldl_add (m : Masks) (cs : List Word) : (cs.foldl Masks.add m).root = m.root.addArray cs := by
  induction cs generalizing m with
  | nil => rfl
  | cons c cs ih => exact ih (m.add c)

theorem Masks.root_mayHave (m : Masks) (c : Word) : m.root.mayHave c = m.mayHave c := rfl

end Sys2Proof.Machine
end

section
/-! The commands that add, run while the masks hold a value (R171, R172, R190). -/

namespace Sys2Proof.Machine

theorem exec_add_inited {s : State} {m : Masks} (hf : s.filter = some m) :
    exec .add s = .next (s.mutated 2 (m.add s.opa)) :=
  whenInited_some hf _

theorem exec_addRange_inited {s : State} {m : Masks} (hf : s.filter = some m) (hle : s.opa ≤ s.opb) :
    exec .addRange s = .next (s.mutated 3 (m.addRange s.opa s.opb)) :=
  (whenInited_some hf _).trans (if_neg (BitVec.not_lt.mpr hle))

/-- The bytes of a log of reads, one for each address, are the bytes read (R72). -/
theorem OnlyReads.bytesRead_eq {s t : State} {l : List Word} {bs : List Byte} (h : OnlyReads s t (l.zip bs))
    (hlen : l.length = bs.length) : bytesRead s t = bs := by
  have hr : t.reads = s.reads ++ l.zip bs := by rw [h]
  rw [bytesRead, hr, List.drop_left, List.map_snd_zip hlen.ge]

/-- An array command adds the elements that the bytes it read make, in order (R190, R193). -/
theorem exec_array_filter {i : Instr} {n : Nat} {be : Bool} {s t : State} {m : Masks}
    (hi : arrayShape i = some (n, be)) (hf : s.filter = some m) (h : exec i s = .next t) :
    t.filter = some ((elementsOf n be s.count.toNat (bytesRead s t)).foldl Masks.add m) := by
  rw [exec_array hi] at h
  rcases addElements_next h with ⟨hn, -⟩ | ⟨m', bs, u, hf', hlen, reads, -, -, rfl⟩
  · simp [hf] at hn
  obtain rfl : m = m' := Option.some.inj (hf.symm.trans hf')
  have bytes : bytesRead s u = bs := reads.bytesRead_eq (by rw [arrayAddresses_length, hlen])
  rw [← bytes]
  rfl

end Sys2Proof.Machine
end

section
/-! The statement about the combiner: the commands act on the tree (R154). -/

namespace Sys2Proof

open Machine

/-- Settles O53: what each command does to the masks, and that operation of the masks on the tree. -/
theorem commandsActOnTheTree : Obligations.CommandsActOnTheTree := by
  intro s t m hf
  refine ⟨fun h => ?_, fun h => ?_, fun h hle => ?_, fun i n be hi h => ?_, fun h => ?_⟩
  · obtain rfl := Host.Outcome.next.inj h
    exact ⟨_, rfl, m.root_cleared⟩
  · rw [exec_add_inited hf] at h
    obtain rfl := Host.Outcome.next.inj h
    exact ⟨_, rfl, m.root_add s.opa⟩
  · rw [exec_addRange_inited hf hle] at h
    obtain rfl := Host.Outcome.next.inj h
    exact ⟨_, rfl, m.root_addRange s.opa s.opb⟩
  · exact ⟨_, exec_array_filter hi hf h, m.root_foldl_add _⟩
  · rw [exec_query_inited hf] at h
    obtain rfl := Host.Outcome.next.inj h
    rw [queryResult_hit, Masks.root_mayHave]

end Sys2Proof
end

section
/-! The buckets of a range of codepoints (R125, R126, R252): which remainders a run of quotients meets, and so which
bits `leaf_add_range` sets. -/

namespace Sys2Proof.Machine

/-- The quotients of the codepoints in `[a, b]` are all the numbers from that of `a` to that of `b`. -/
theorem exists_quotient_iff (s : Nat) {a b : Word} (hab : a ≤ b) (P : Nat → Prop) :
    (∃ c : Word, (a ≤ c ∧ c ≤ b) ∧ P (c.toNat / 2 ^ s)) ↔
      ∃ q, a.toNat / 2 ^ s ≤ q ∧ q ≤ b.toNat / 2 ^ s ∧ P q := by
  constructor
  · rintro ⟨c, ⟨hac, hcb⟩, hP⟩
    exact ⟨_, Nat.div_le_div_right hac, Nat.div_le_div_right hcb, hP⟩
  · rintro ⟨q, haq, hqb, hP⟩
    rcases haq.eq_or_lt with rfl | hlt
    · exact ⟨a, ⟨BitVec.le_refl a, hab⟩, hP⟩
    · have hs : 0 < 2 ^ s := Nat.two_pow_pos s
      have ha : a.toNat < q * 2 ^ s := (Nat.div_lt_iff_lt_mul hs).mp hlt
      have hb : q * 2 ^ s ≤ b.toNat := (Nat.le_div_iff_mul_le hs).mp hqb
      have hc : (BitVec.ofNat 32 (q * 2 ^ s)).toNat = q * 2 ^ s :=
        Nat.mod_eq_of_lt (hb.trans_lt b.isLt)
      refine ⟨BitVec.ofNat 32 (q * 2 ^ s), ⟨?_, ?_⟩, ?_⟩
      · rw [BitVec.le_def, hc]
        exact ha.le
      · rwa [BitVec.le_def, hc]
      · rwa [hc, Nat.mul_div_cancel q hs]

/-- A run of at least `W` numbers meets every remainder modulo `W`. -/
theorem exists_mod_eq_of_saturated {W p r k : Nat} (hpr : p ≤ r) (hd : W - 1 ≤ r - p) (hk : k < W) :
    ∃ q, p ≤ q ∧ q ≤ r ∧ q % W = k := by
  have hdiv := Nat.div_add_mod (p + W - 1 - k) W
  have hmod := Nat.mod_lt (p + W - 1 - k) (Nat.zero_lt_of_lt hk)
  refine ⟨k + W * ((p + W - 1 - k) / W), by omega, by omega, ?_⟩
  rw [Nat.add_mul_mod_self_left, Nat.mod_eq_of_lt hk]

/-- A shorter run whose remainders do not wrap meets those between its ends. -/
theorem exists_mod_eq_iff_of_le (l : Leaf) {p r : Nat} (k : Nat) (hpr : p ≤ r) (hd : r - p < l.width - 1)
    (h : p % l.width ≤ r % l.width) :
    (∃ q, p ≤ q ∧ q ≤ r ∧ q % l.width = k) ↔ p % l.width ≤ k ∧ k ≤ r % l.width := by
  constructor
  · rintro ⟨q, hpq, hqr, rfl⟩
    rcases l.legal.1 with hw | hw | hw | hw <;> rw [hw] at hd h ⊢ <;> omega
  · rintro ⟨hpk, hkr⟩
    refine ⟨p - p % l.width + k, ?_⟩
    rcases l.legal.1 with hw | hw | hw | hw <;> rw [hw] at hd h hpk hkr ⊢ <;> omega

/-- A shorter run whose remainders wrap meets those from its start up and those down from its end. -/
theorem exists_mod_eq_iff_of_lt (l : Leaf) {p r k : Nat} (hpr : p ≤ r) (hd : r - p < l.width - 1)
    (h : r % l.width < p % l.width) (hk : k < l.width) :
    (∃ q, p ≤ q ∧ q ≤ r ∧ q % l.width = k) ↔ p % l.width ≤ k ∨ k ≤ r % l.width := by
  constructor
  · rintro ⟨q, hpq, hqr, rfl⟩
    rcases l.legal.1 with hw | hw | hw | hw <;> rw [hw] at hd h ⊢ <;> omega
  · rintro (hpk | hkr)
    · refine ⟨p - p % l.width + k, ?_⟩
      rcases l.legal.1 with hw | hw | hw | hw <;> rw [hw] at hd h hk hpk ⊢ <;> omega
    · refine ⟨r - r % l.width + k, ?_⟩
      rcases l.legal.1 with hw | hw | hw | hw <;> rw [hw] at hd h hk hkr ⊢ <;> omega

/-- `leaf_add_range` sets exactly the buckets of the codepoints in `[a, b]`, in the three cases of R126 alike (R252). -/
theorem leafAddRange_getLsbD_iff (l : Leaf) (m : BitVec l.width) {a b : Word} (hab : a ≤ b) {k : Nat}
    (hk : k < l.width) :
    (leafAddRange l.width l.shift m a b).getLsbD k = true ↔
      m.getLsbD k = true ∨ ∃ c : Word, (a ≤ c ∧ c ≤ b) ∧ c.toNat / 2 ^ l.shift % l.width = k := by
  have hle : a.toNat / 2 ^ l.shift ≤ b.toNat / 2 ^ l.shift := Nat.div_le_div_right hab
  obtain ⟨saturated, run, wrapped⟩ := runArithmeticCases l m a b hab
  rw [exists_quotient_iff l.shift hab fun q => q % l.width = k]
  rcases Nat.lt_or_ge (b.toNat / 2 ^ l.shift - a.toNat / 2 ^ l.shift) (l.width - 1) with hd | hd
  · rcases Nat.lt_or_ge (b.toNat / 2 ^ l.shift % l.width) (a.toNat / 2 ^ l.shift % l.width) with hw | hw
    · rw [(wrapped hd hw).2 k hk, exists_mod_eq_iff_of_lt l hle hd hw hk, Bool.or_eq_true, decide_eq_true_iff]
    · rw [run hd hw k hk, exists_mod_eq_iff_of_le l k hle hd hw, Bool.or_eq_true, decide_eq_true_iff]
  · rw [saturated hd, BitVec.getLsbD_allOnes, decide_eq_true hk]
    exact iff_of_true rfl (.inr (exists_mod_eq_of_saturated hle hd hk))

/-- ADD_RANGE's update sets exactly the buckets of the members of its range (R154, R172). -/
theorem Masks.addRange_masksAdd (m : Masks) {a b : Word} (hab : a ≤ b) :
    MasksAdd (fun c => a ≤ c ∧ c ≤ b) m (m.addRange a b) := by
  have h1 := fun k (hk : k < 32) => leafAddRange_getLsbD_iff .l1 m.m1 hab hk
  simp only [Nat.pow_zero, Nat.div_one] at h1
  exact ⟨fun _ => leafAddRange_getLsbD_iff .l0 m.m0 hab, h1, fun _ => leafAddRange_getLsbD_iff .l2 m.m2 hab⟩

end Sys2Proof.Machine
end

section
/-! The refusals of a command, and the answer of an empty filter (R98, R170, R172). -/

namespace Sys2Proof.Machine

/-- The refusal of `exec_uninit` is the report of R267. -/
theorem refusedUninit {i : Instr} {s : State} (hf : s.filter = none) (hi : i ≠ .init) :
    RefusedUninit i (opcField (encode i)).toNat s :=
  ⟨_, exec_uninit hf hi, reported_report (e := .uninit) rfl _ s⟩

/-- ADD_RANGE of a range that is not ordered (R172). -/
theorem exec_addRange_range {s : State} {m : Masks} (hf : s.filter = some m) (hlt : s.opb < s.opa) :
    exec .addRange s = .next (report .range 3 s) :=
  (whenInited_some hf _).trans (if_pos hlt)

theorem leafInit_getLsbD (w k : Nat) : (leafInit w).getLsbD k = false := BitVec.getLsbD_zero

/-- A leaf without codepoints answers 0 (R129, R170). -/
theorem leafMayHave_leafInit (s : Nat) (c : Word) : leafMayHave 32 s (leafInit 32) c = false := by
  rw [leafMayHave_eq, leafInit_getLsbD]

/-- Every leaf of an empty filter answers 0, so no hit bit is set (R170, R210). -/
theorem queryHits_cleared (c : Word) : queryHits Masks.cleared c = 0 := by
  simp [queryHits, Masks.mayHave, Masks.hasTail, Masks.has0, Masks.has1, Masks.has2, Masks.cleared,
    leafMayHave_leafInit, hitBits]

end Sys2Proof.Machine
end

section
/-! The statements about INIT, ADD and ADD_RANGE. -/

namespace Sys2Proof

open Machine

/-- Settles O19: ADD's update of the masks, and the frame that every command keeps. -/
theorem addSetsThreeBuckets : Obligations.AddSetsThreeBuckets := by
  refine fun s => ⟨fun m hf => ?_, fun hf => refusedUninit hf (by decide)⟩
  have run := exec_add_inited hf
  exact ⟨_, _, run, rfl, m.add_masksAdd s.opa, rfl, rfl, rfl, (exec_next run).frame, rfl⟩

/-- Settles O20: `leaf_add_range` sets the buckets of the range's members in each of its cases. -/
theorem addRangeAddsItsMembers : Obligations.AddRangeAddsItsMembers := by
  refine fun s => ⟨fun m hf hle => ?_, fun hi hlt => ?_, fun hf => refusedUninit hf (by decide)⟩
  · have run := exec_addRange_inited hf hle
    exact ⟨_, _, run, rfl, m.addRange_masksAdd hle, rfl, rfl, rfl, (exec_next run).frame, rfl⟩
  · obtain ⟨m, hf⟩ := (inited_iff s).mp hi
    exact ⟨_, exec_addRange_range hf hlt, reported_report (e := .range) rfl 3 s⟩

/-- Settles O18: INIT's masks are zero, and a QUERY on them sets no hit bit. -/
theorem initEmptiesFilter : Obligations.InitEmptiesFilter := by
  intro s
  have run : exec .init s = .next (s.mutated 1 Masks.cleared) := rfl
  have zero := leafInit_getLsbD Config.leafWidth
  refine ⟨_, _, run, rfl, rfl, fun k => ⟨zero k, zero k, zero k⟩, rfl, rfl, rfl, (exec_next run).frame, rfl,
    fun u hu => ⟨_, exec_query_inited hu, ?_⟩⟩
  rw [queryHits_cleared]
  rfl

end Sys2Proof
end

section
/-! The addresses of an array command by position: element by element, byte by byte (R72, R192). -/

namespace Sys2Proof.Machine

theorem elemAddr_zero (s : State) : elemAddr s 0 = s.addr := by
  simp [elemAddr]

theorem elemAddr_succ (s : State) (i : Nat) : elemAddr s (i + 1) = elemAddr s i + s.stride := by
  simp [elemAddr, Nat.succ_mul, BitVec.ofNat_add, BitVec.add_assoc]

theorem getElem?_readAddresses {n k : Nat} (hk : k < n) (a : Word) :
    (readAddresses a n)[k]? = some (a + BitVec.ofNat 32 k) := by
  simp [readAddresses, hk]

/-- Byte `k` of the `i`-th element from element `j` on is the `(n*i+k)`-th byte read from there. -/
theorem getElem?_loopAddresses {n i k c : Nat} (hi : i < c) (hk : k < n) (s : State) (j : Nat) :
    (loopAddresses n s j c)[n * i + k]? = some (elemAddr s (j + i) + BitVec.ofNat 32 k) := by
  have hlen (a : Word) : (readAddresses a n).length = n := by simp [readAddresses]
  induction c generalizing i j with
  | zero => omega
  | succ c ih =>
    rw [loopAddresses_succ]
    cases i with
    | zero =>
      rw [Nat.mul_zero, Nat.zero_add, List.getElem?_append_left (by rwa [hlen]), getElem?_readAddresses hk,
        Nat.add_zero]
    | succ i =>
      rw [show n * (i + 1) + k = n + (n * i + k) by ring, List.getElem?_append_right (by rw [hlen]; omega), hlen,
        Nat.add_sub_cancel_left, ih (by omega), show j + 1 + i = j + (i + 1) by omega]

theorem getElem?_arrayAddresses {n i k : Nat} {s : State} (hi : i < s.count.toNat) (hk : k < n) :
    (arrayAddresses n s)[n * i + k]? = some (elemAddr s i + BitVec.ofNat 32 k) := by
  rw [arrayAddresses_eq, getElem?_loopAddresses hi hk, Nat.zero_add]

end Sys2Proof.Machine
end

section
/-! An array command that completes, in terms of the bytes read; the two opcodes compared (R190, R193). -/

namespace Sys2Proof.Machine

/-- `RESULT` of a command that completes without an answer is its opcode in bits [15:12] (R33). -/
theorem doneWord_eq (opc : BitVec 4) : doneWord opc = BitVec.ofNat 32 (opc.toNat * 0x1000) := by
  revert opc
  decide

/-- A completed array command reads its addresses in order, then adds the elements that the bytes it read make (R72,
R190). -/
theorem exec_array_bytesRead {i : Instr} {n : Nat} {be : Bool} {s t : State} {m : Masks}
    (hi : arrayShape i = some (n, be)) (hf : s.filter = some m) (h : exec i s = .next t) :
    (bytesRead s t).length = n * s.count.toNat ∧ LogFrom s ((arrayAddresses n s).zip (bytesRead s t)) ∧
      ∃ u, OnlyReads s u ((arrayAddresses n s).zip (bytesRead s t)) ∧
        t = u.mutated (opcField (encode i)) ((elementsOf n be s.count.toNat (bytesRead s t)).foldl Masks.add m) := by
  rw [exec_array hi] at h
  rcases addElements_next h with ⟨hn, -⟩ | ⟨m', bs, u, hf', hlen, reads, -, log, ht⟩
  · simp [hf] at hn
  obtain rfl : m = m' := Option.some.inj (hf.symm.trans hf')
  have bytes : bytesRead s t = bs := by
    rw [ht]
    exact reads.bytesRead_eq (by rw [arrayAddresses_length, hlen])
  rw [bytes]
  exact ⟨hlen, log, u, reads, ht⟩

/-- Below its opcode, `RESULT` of the two opcodes is the same (R33). -/
theorem resultWord_sorted_low (code : BitVec 4) :
    (resultWord 5 code 0).extractLsb' 0 12 = (resultWord 4 code 0).extractLsb' 0 12 := by
  revert code
  decide

/-- Two states that differ in `RESULT` alone, by the opcodes 4 and 5 (R33, R193). -/
theorem sameButOpc_result (code : BitVec 4) (s : State) :
    SameButOpc (.next { s with result := resultWord 4 code 0 }) (.next { s with result := resultWord 5 code 0 }) :=
  ⟨rfl, resultWord_opc 4 code 0, resultWord_opc 5 code 0, resultWord_sorted_low code,
    (resultWord_reserved_high 5 code 0).trans (resultWord_reserved_high 4 code 0).symm⟩

/-- The opcode of an array command reaches `RESULT` alone: the loop does not see it, nor does the report of
`E_UNINIT` (R193). -/
theorem sameButOpc_addElements (n : Nat) (be : Bool) (s : State) :
    SameButOpc (addElements 4 n be s) (addElements 5 n be s) := by
  unfold addElements
  cases hf : s.filter with
  | none =>
    rw [whenInited_none hf, whenInited_none hf]
    exact sameButOpc_result _ { s with err := s.err ||| CmdError.uninit.errBit }
  | some m =>
    rw [whenInited_some hf, whenInited_some hf]
    cases arrayLoop n be s.count.toNat 0 m s with
    | error f => rfl
    | ok p => exact sameButOpc_result 0 { p.2 with filter := some p.1 }

end Sys2Proof.Machine
end

section
/-! ADD driven through the port: the call of R100, and a sequence of such calls. -/

namespace Sys2Proof.Machine

/-- ADD written to `CMD` while the masks hold a value (R171). -/
theorem step_add {s : State} {m : Masks} {rest : List HostEvent} (hf : s.filter = some m)
    (hp : s.port = writeCommand 0x02 :: rest) :
    step s = .next ({ s with port := rest, answer := some .writeOk }.mutated 2 (m.add s.opa)) := by
  rw [step_cmd hp, launch_of_decode (i := .add) rfl, exec_add_inited (m := m)]
  exact hf

/-- The two transactions of `add c` while `INITED = 1` (R100): the operand is stored and ADD runs. -/
theorem run_add {s : State} {m : Masks} {c : Word} {rest : List HostEvent} (hf : s.filter = some m)
    (hp : s.port = Pseudo.expand (.add c) ++ rest) (k : Nat) :
    core.run (k + 2) s =
      core.run k ({ s with port := rest, answer := some .writeOk, opa := c }.mutated 2 (m.add c)) := by
  have load : step s = .next { s with port := writeCommand 0x02 :: rest, answer := some .writeOk, opa := c } :=
    step_cons hp
  refine (run_next load (k + 1)).trans (run_next (step_add (m := m) ?_ rfl) k)
  exact hf

/-- Successive `add` calls while `INITED = 1` add their codepoints in turn (R100, R190). -/
theorem run_adds {cs : List Word} {s : State} {m : Masks} {rest : List HostEvent} (hf : s.filter = some m)
    (hp : s.port = (cs.flatMap fun c => Pseudo.expand (.add c)) ++ rest) :
    ∃ u, core.run (2 * cs.length) s = .next u ∧ u.filter = some (cs.foldl Masks.add m) ∧ u.port = rest := by
  induction cs generalizing s m with
  | nil => exact ⟨s, rfl, hf, hp⟩
  | cons c cs ih =>
    rw [List.flatMap_cons, List.append_assoc] at hp
    rw [List.length_cons, Nat.mul_succ, run_add hf hp]
    exact ih rfl rfl

theorem elementsOf_length (n : Nat) (be : Bool) (count : Nat) (bs : List Byte) :
    (elementsOf n be count bs).length = count := by
  simp [elementsOf]

end Sys2Proof.Machine
end

section
/-! The statements about the array commands. -/

namespace Sys2Proof

open Machine

theorem arrayCommandAdds {i : Instr} {n : Nat} {be : Bool} (hi : arrayShape i = some (n, be)) :
    ArrayCommandAdds i (opcField (encode i)).toNat n be := by
  refine fun s => ⟨fun m hf answered => ?_, fun hf => refusedUninit hf (by rintro rfl; cases hi)⟩
  obtain ⟨t, ht⟩ := addElements_answered (opc := opcField (encode i)) (be := be) answered
  rw [← exec_array hi] at ht
  obtain ⟨hlen, log, u, reads, final⟩ := exec_array_bytesRead hi hf ht
  rw [reads] at final
  exact ⟨t, _, ht, exec_array_filter hi hf ht, congrArg State.reads final, hlen, log, m.foldl_add_masksAdd _,
    (congrArg State.result final).trans (doneWord_eq _), (congrArg State.err final :), (congrArg State.vresult final :),
    (exec_next ht).frame⟩

/-- Settles O21, one argument for every command with an element size and a byte order. -/
theorem arrayCommandsAddElementsAsRead : Obligations.ArrayCommandsAddElementsAsRead := by
  intro be
  cases be <;>
    exact ⟨arrayCommandAdds rfl, arrayCommandAdds rfl, arrayCommandAdds rfl,
      arrayCommandAdds rfl, arrayCommandAdds rfl, arrayCommandAdds rfl⟩

/-- Settles O22: the address of an element as a number, its step by the stride, and the position of its bytes. -/
theorem elementAddressesStepByStride : Obligations.ElementAddressesStepByStride := by
  refine fun s => ⟨fun i => ?_, elemAddr_zero s, elemAddr_succ s, fun n i k hi hk => ?_⟩
  · simpa using elemAddr_add_toNat s i 0
  · rw [getElem?_arrayAddresses hi hk, Option.map_some, elemAddr_add_toNat]

/-- Settles O26: both commands are `addElements`, which echoes its opcode in `RESULT` and does nothing else with it. -/
theorem sortedArrayIsArray : Obligations.SortedArrayIsArray := fun s be =>
  ⟨sameButOpc_addElements 1 be s, sameButOpc_addElements 2 be s, sameButOpc_addElements 4 be s⟩

/-- Settles O27: the command and the sequence of `add` calls add the same elements in the same order. -/
theorem arrayIsSuccessiveAdds : Obligations.ArrayIsSuccessiveAdds := by
  intro s t be rest hs q hq h adds
  obtain ⟨m, hf⟩ := (inited_iff s).mp hs
  have hi : arrayShape q.1 = some (q.2, be) := by
    simp only [List.mem_cons, List.not_mem_nil, or_false] at hq
    rcases hq with rfl | rfl | rfl | rfl | rfl | rfl <;> rfl
  obtain ⟨u, run, hfilter, hport⟩ := run_adds (s := { s with port := adds ++ rest }) hf rfl
  rw [elementsOf_length] at run
  exact ⟨u, run, hfilter.trans (exec_array_filter hi hf h).symm, hport⟩

end Sys2Proof
end

section
/-! The bits that the two queries report, each as the leaf's mask bit at the bucket (R154, R210, R211). -/

namespace Sys2Proof.Machine

theorem Masks.has0_eq (m : Masks) (c : Word) : m.has0 c = m.m0.getLsbD (c.toNat / 16 % 32) := leafMayHave_eq 4 m.m0 c

theorem Masks.has1_eq (m : Masks) (c : Word) : m.has1 c = m.m1.getLsbD (c.toNat % 32) := by
  rw [Masks.has1, leafMayHave_eq, pow_zero, Nat.div_one]

theorem Masks.has2_eq (m : Masks) (c : Word) : m.has2 c = m.m2.getLsbD (c.toNat / 512 % 32) := leafMayHave_eq 9 m.m2 c

/-- The leaves' bits and `TAIL` of a QUERY (R33, R210); `HIT` is `queryResult_hit`. -/
theorem queryResult_leaves (m : Masks) (c : Word) :
    (resultWord 6 0 (queryHits m c)).getLsbD 1 = m.has0 c ∧ (resultWord 6 0 (queryHits m c)).getLsbD 2 = m.has1 c ∧
      (resultWord 6 0 (queryHits m c)).getLsbD 3 = m.has2 c ∧
      (resultWord 6 0 (queryHits m c)).getLsbD 4 = m.hasTail c := by
  refine ⟨?_, ?_, ?_, ?_⟩ <;> rw [resultWord_hit _ _ _ _ (by decide), queryHits]
  · exact hitBits_l0 _ _ _ _ _
  · exact hitBits_l1 _ _ _ _ _
  · exact hitBits_l2 _ _ _ _ _
  · exact hitBits_tail _ _ _ _ _

/-- Above the hit bits a command that completes `OK` reports its opcode alone (R33). -/
theorem resultWord_ok_div (opc : BitVec 4) (hits : BitVec 5) :
    (resultWord opc 0 hits).toNat / 32 = opc.toNat * 0x1000 / 32 := by
  have := hits.isLt
  rw [resultWord_toNat]
  change (_ + 0 * 0x100 + _) / 32 = _
  omega

theorem exec_vquery_inited {s : State} {m : Masks} (hf : s.filter = some m) :
    exec .vquery s = .next { s with
      vresult := (batchQuery m s.lanes).1, result := resultWord 7 0 (batchQuery m s.lanes).2 } :=
  whenInited_some hf _

end Sys2Proof.Machine
end

section
/-! The statements about QUERY and VQUERY. -/

namespace Sys2Proof

open Machine

/-- Settles O29: the bits of `RESULT` are the leaves' answers at `OPA`, and the frame is that of every command. -/
theorem queryReportsLeafAnswers : Obligations.QueryReportsLeafAnswers := by
  refine fun s => ⟨fun m hf => ?_, fun hf => refusedUninit hf (by decide)⟩
  have run := exec_query_inited hf
  obtain ⟨l0, l1, l2, tail⟩ := queryResult_leaves m s.opa
  refine ⟨_, run, l0.trans (m.has0_eq _), l1.trans (m.has1_eq _), l2.trans (m.has2_eq _), ?_, ?_,
    resultWord_ok_div _ _, rfl, rfl, rfl, (exec_next run).frame, rfl⟩
  · rw [tail, l1, l2, Masks.hasTail]
  · rw [queryResult_hit, l0, tail, Masks.mayHave]

/-- Settles O30: lane by lane the leaves' answers at that lane, and in `RESULT` the OR over the lanes of each. -/
theorem vqueryReportsLaneAnswers : Obligations.VqueryReportsLaneAnswers := by
  refine fun s => ⟨fun m hf => ?_, fun hf => refusedUninit hf (by decide)⟩
  have run := exec_vquery_inited hf
  have lane := batchQuery_lane m s.lanes
  obtain ⟨hit, l0, l1, l2, tail⟩ := batchQuery_any m s.lanes
  refine ⟨_, run, fun i => ?_, ?_, ?_, ?_, ?_, ?_, resultWord_ok_div _ _, rfl, rfl, (exec_next run).frame, rfl⟩
  · obtain ⟨root, b0, b1, b2⟩ := lane i
    refine ⟨b0.trans (m.has0_eq _), b1.trans (m.has1_eq _), b2.trans (m.has2_eq _), ?_⟩
    rw [root, b0, b1, b2, Masks.mayHave, Masks.hasTail, Bool.and_assoc]
  · simpa only [lane] using hit
  · simpa only [lane] using l0
  · simpa only [lane] using l1
  · simpa only [lane] using l2
  · simpa only [lane, Masks.hasTail, Bool.and_eq_true] using tail

/-- Settles O31: a lane of the batch and a QUERY of that lane both report the leaves' and ROOT's answers. -/
theorem batchAgreesWithScalarQueries : Obligations.BatchAgreesWithScalarQueries := by
  intro s hs
  obtain ⟨m, hf⟩ := (inited_iff s).mp hs
  refine ⟨_, _, exec_vquery_inited hf, fun i => ⟨exec_query_inited (s := { s with opa := s.lanes[i] }) hf, ?_⟩, ?_⟩
  · obtain ⟨root, b0, b1, b2⟩ := batchQuery_lane m s.lanes i
    obtain ⟨l0, l1, l2, -⟩ := queryResult_leaves m s.lanes[i]
    exact ⟨root.trans (queryResult_hit m _).symm, b0.trans l0.symm, b1.trans l1.symm, b2.trans l2.symm⟩
  · simpa only [queryResult_hit] using (batchQuery_any m s.lanes).1

end Sys2Proof
end

section
/-! The permission table of R235 over the registers, and what a permitted and a forbidden transaction do (R236). -/

namespace Sys2Proof.Machine

/-- The registers a read may address: all but `CMD` (R32, R235). -/
def Reg.readable (r : Reg) : Bool := r ≠ .cmd

/-- The registers a write may address: `CTRL`, `ERR`, `CMD`, the operands and the lanes (R235). -/
def Reg.writable : Reg → Bool
  | .ctrl | .err | .cmd | .opa | .opb | .addr | .count | .stride | .vlane _ => true
  | .config | .status | .result | .vresult | .mask _ => false

/-- The offsets at which R235 forbids a read are those of no readable register. -/
theorem forbidden_read_offset_iff (idx : BitVec 5) :
    4 * idx.toNat ∈ [0x10, 0x1C, 0x34, 0x38, 0x3C, 0x6C, 0x70, 0x74, 0x78, 0x7C] ↔
      (regAt idx).any Reg.readable = false := by
  revert idx
  decide

/-- The offsets at which R235 forbids a write are those of no writable register. -/
theorem forbidden_write_offset_iff (idx : BitVec 5) :
    4 * idx.toNat ∈
        [0x00, 0x08, 0x14, 0x18, 0x1C, 0x34, 0x38, 0x3C, 0x60, 0x64, 0x68, 0x6C, 0x70, 0x74, 0x78, 0x7C] ↔
      (regAt idx).any Reg.writable = false := by
  revert idx
  decide

/-- An index that selects a register of a kind is that register's index. -/
theorem exists_index_of_any {idx : BitVec 5} {p : Reg → Bool} (h : (regAt idx).any p = true) :
    ∃ r, idx = Reg.index r ∧ p r = true := by
  obtain ⟨r, hr, hp⟩ := (Option.any_eq_true p _).mp h
  exact ⟨r, regAt_eq hr, hp⟩

theorem exists_regValue {r : Reg} (hr : Reg.readable r = true) (s : State) : ∃ v, regValue r s = some v := by
  cases r with
  | cmd => cases hr
  | _ => exact ⟨_, rfl⟩

/-- A forbidden read is a bus error and changes no state (R236). -/
theorem step_read_forbidden {s : State} {rest : List HostEvent} {idx : BitVec 5} (hp : s.port = .rd idx :: rest)
    (hf : (regAt idx).any Reg.readable = false) :
    step s = .next { s with port := rest, answer := some .readError } := by
  rw [step_cons hp, takeEvent, portRead]
  cases hr : regAt idx with
  | none => rfl
  | some r =>
    obtain rfl : r = .cmd := by simpa [hr, Reg.readable] using hf
    rfl

/-- A permitted read completes without error and writes no register and no memory (R231). -/
theorem step_read_permitted {s : State} {rest : List HostEvent} {r : Reg} (hp : s.port = .rd (Reg.index r) :: rest)
    (hr : Reg.readable r = true) :
    ∃ t v, step s = .next t ∧ t.answer = some (.readOk v) ∧ SameEngine s t ∧ KeepsMemory s t := by
  obtain ⟨v, hv⟩ := exists_regValue hr s
  exact ⟨_, v, step_read hp hv, rfl, ⟨rfl, ⟨rfl, rfl, rfl, rfl, rfl, rfl, rfl⟩, rfl, rfl, rfl⟩, fun _ => rfl, rfl⟩

/-- A read that draws no free value changes nothing but the answer (R231). -/
theorem step_read_of_draws_eq_zero {s : State} {rest : List HostEvent} {r : Reg} {v : Word} (hv : regValue r s = some v)
    (hd : regDraws r s = 0) (hp : s.port = .rd (Reg.index r) :: rest) :
    step s = .next { s with port := rest, answer := some (.readOk v) } := by
  rw [step_read hp hv, hd]
  rfl

/-- A forbidden write is a bus error and changes no state (R236). -/
theorem portWrite_forbidden {idx : BitVec 5} (hf : (regAt idx).any Reg.writable = false) (data : Word) (s : State) :
    portWrite idx data s = .next { s with answer := some .writeError } := by
  cases hr : regAt idx with
  | none => rw [portWrite, hr]
  | some r =>
    rw [hr] at hf
    obtain rfl := regAt_eq hr
    cases r with
    | ctrl | err | cmd | opa | opb | addr | count | stride | vlane i => cases hf
    | mask i => exact portWrite_mask i data s
    | config | status | result | vresult => rfl

/-- A permitted write that completes answers `reg_err = 0`: no command touches the port (R234, R236). -/
theorem portWrite_permitted_answer {r : Reg} {data : Word} {s t : State} (hr : Reg.writable r = true)
    (h : portWrite (Reg.index r) data s = .next t) : t.answer = some .writeOk := by
  cases r with
  | config | status | result | vresult | mask i => cases hr
  | cmd =>
    obtain ⟨-, -, -, hanswer⟩ := launch_frame h
    exact hanswer
  | vlane i =>
    rw [portWrite_vlane] at h
    obtain rfl := Host.Outcome.next.inj h
    rfl
  | ctrl | err | opa | opb | addr | count | stride =>
    obtain rfl := Host.Outcome.next.inj h
    rfl

end Sys2Proof.Machine
end

section
/-! The words in which the configuration and flag registers read (R28 to R31), and `VEC_EN` after a write (R238). -/

namespace Sys2Proof.Machine

theorem configWord_eq (hasVec : Bool) : configWord hasVec = if hasVec then 0x01292024 else 0x00292024 := by
  cases hasVec <;> rfl

theorem ctrlWord_eq (vecEn : Bool) : ctrlWord vecEn = if vecEn then 1 else 0 := by
  cases vecEn <;> rfl

theorem statusWord_eq (hasVec vecEn inited : Bool) :
    statusWord hasVec vecEn inited = (if inited then 1 else 0) ||| (if hasVec && vecEn then 2 else 0) := by
  cases inited <;> cases hasVec <;> cases vecEn <;> rfl

theorem errWord_eq (e : BitVec 3) : errWord e = e.setWidth 32 := by
  revert e
  decide

theorem vecEnAfterWrite_eq (hasVec old : Bool) (data : Word) :
    vecEnAfterWrite hasVec old data = if hasVec then data.toNat % 2 == 1 else old := by
  rw [vecEnAfterWrite, BitVec.getLsbD, Nat.testBit_zero]
  rfl

end Sys2Proof.Machine
end

section
/-! The statements about the register port: bus errors, the readable registers, and the writes of `CTRL` and `ERR`. -/

namespace Sys2Proof

open Machine

/-- Settles O14: the offset lists are the registers R235 does not permit, and each kind of transaction has one rule. -/
theorem busErrorsExactly : Obligations.BusErrorsExactly := by
  refine ⟨fun s rest idx hp => ⟨fun hf => ?_, fun hf => ?_⟩, fun s rest idx data hp => ⟨fun hf => ?_, fun hf t h => ?_⟩⟩
  · exact step_read_forbidden hp ((forbidden_read_offset_iff idx).mp hf)
  · rw [forbidden_read_offset_iff, Bool.not_eq_false] at hf
    obtain ⟨r, rfl, hr⟩ := exists_index_of_any hf
    exact step_read_permitted hp hr
  · rw [step_cons hp]
    exact portWrite_forbidden ((forbidden_write_offset_iff idx).mp hf) data _
  · rw [forbidden_write_offset_iff, Bool.not_eq_false] at hf
    obtain ⟨r, rfl, hr⟩ := exists_index_of_any hf
    rw [step_cons hp] at h
    exact portWrite_permitted_answer hr h

/-- Settles O11: `step_read_of_draws_eq_zero` at each register, the masks' own rule, and the bus errors of R236. -/
theorem readsReturnRegisters : Obligations.ReadsReturnRegisters := by
  intro s rest
  have read (r : Reg) {v : Word} (hv : regValue r s = some v) (hd : regDraws r s = 0) :=
    step_read_of_draws_eq_zero (rest := rest) hv hd
  have lane (i : Fin 8) := read (.vlane i) rfl rfl
  have mask := maskRegistersAreReadOnly s rest
  refine ⟨?_, fun m hf => ?_, fun hf => ?_, fun idx hi hp => ?_⟩
  · simp only [List.forall_mem_cons]
    exact ⟨read .config (congrArg some (configWord_eq _)) rfl, read .ctrl (congrArg some (ctrlWord_eq _)) rfl,
      read .status (congrArg some (statusWord_eq _ _ _)) rfl, read .err (congrArg some (errWord_eq _)) rfl,
      read .result rfl rfl, read .vresult rfl rfl, read .opa rfl rfl, read .opb rfl rfl, read .addr rfl rfl,
      read .count rfl rfl, read .stride rfl rfl,
      lane 0, lane 1, lane 2, lane 3, lane 4, lane 5, lane 6, lane 7, List.forall_mem_nil _⟩
  · have held (i : Fin 3) (hp) := ((mask i).1 hp).1 m hf
    simp only [List.forall_mem_cons]
    exact ⟨held 0, held 1, held 2, List.forall_mem_nil _⟩
  · have free (i : Fin 3) (hp) := ((mask i).1 hp).2 hf
    simp only [List.forall_mem_cons]
    exact ⟨free 0, free 1, free 2, List.forall_mem_nil _⟩
  · have unreadable : ∀ idx ∈ ([4, 7, 13, 14, 15, 27, 28, 29, 30, 31] : List (BitVec 5)),
        (regAt idx).any Reg.readable = false := by decide
    exact step_read_forbidden hp (unreadable idx hi)

/-- Settles O16: `VEC_EN` after a write is bit 0 of the data where the lane datapath is built. -/
theorem ctrlWriteStoresVecEn : Obligations.CtrlWriteStoresVecEn := fun s _ data hp =>
  ⟨_, step_cons hp, vecEnAfterWrite_eq Config.hasVec s.vecEn data, rfl⟩

/-- Settles O17: `errAfterWrite` bit by bit. -/
theorem errWriteOneClears : Obligations.ErrWriteOneClears := fun s _ data hp =>
  ⟨_, step_cons hp, fun k _ => errAfterWrite_getLsbD s.err data k, rfl⟩

end Sys2Proof
end

section
/-! A filter's answers as its masks grow (R129, R133): a bit that a query reports is never lost. -/

namespace Sys2Proof.Machine

theorem Grows.getLsbD {w : Nat} {m m' : BitVec w} (h : Grows m m') {k : Nat} (hk : m.getLsbD k = true) :
    m'.getLsbD k = true := by
  rw [← h, BitVec.getLsbD_and, Bool.and_eq_true] at hk
  exact hk.1

/-- A mask of all ones can only grow to itself (R257). -/
theorem grows_allOnes_iff {w : Nat} {m : BitVec w} : Grows (BitVec.allOnes w) m ↔ m = BitVec.allOnes w := by
  rw [Grows, BitVec.and_allOnes]

/-- A leaf of any width and shift answers the mask bit of the codepoint's bucket (R129). -/
theorem leafMayHave_eq_bucket (w s : Nat) (m : BitVec w) (c : Word) :
    leafMayHave w s m c = m.getLsbD (bucket w s c).toNat := by
  simp [leafMayHave]

theorem Grows.leafMayHave {w : Nat} {m m' : BitVec w} (h : Grows m m') {s : Nat} {c : Word}
    (hm : leafMayHave w s m c = true) : leafMayHave w s m' c = true := by
  rw [leafMayHave_eq_bucket] at hm ⊢
  exact h.getLsbD hm

section
variable {m m' : Masks} {c : Word} (h : MasksGrow m m')
include h

theorem MasksGrow.get : ∀ i : Fin 3, Grows (m.get i) (m'.get i) := by
  obtain ⟨h0, h1, h2⟩ := h
  intro i
  match i with
  | 0 => exact h0
  | 1 => exact h1
  | 2 => exact h2

theorem MasksGrow.has0 (hm : m.has0 c = true) : m'.has0 c = true := (h.get 0).leafMayHave hm

theorem MasksGrow.has1 (hm : m.has1 c = true) : m'.has1 c = true := (h.get 1).leafMayHave hm

theorem MasksGrow.has2 (hm : m.has2 c = true) : m'.has2 c = true := (h.get 2).leafMayHave hm

theorem MasksGrow.hasTail (hm : m.hasTail c = true) : m'.hasTail c = true := by
  rw [Masks.hasTail, Bool.and_eq_true] at hm ⊢
  exact ⟨h.has1 hm.1, h.has2 hm.2⟩

theorem MasksGrow.mayHave (hm : m.mayHave c = true) : m'.mayHave c = true := by
  rw [Masks.mayHave, Bool.and_eq_true] at hm ⊢
  exact ⟨h.has0 hm.1, h.hasTail hm.2⟩

/-- No hit bit of a QUERY goes from 1 to 0 as the masks grow (R251). -/
theorem MasksGrow.queryResult {k : Nat} (hk : k < 5) (hm : (resultWord 6 0 (queryHits m c)).getLsbD k = true) :
    (resultWord 6 0 (queryHits m' c)).getLsbD k = true := by
  obtain ⟨l0, l1, l2, tail⟩ := queryResult_leaves m c
  obtain ⟨l0', l1', l2', tail'⟩ := queryResult_leaves m' c
  match k with
  | 0 => exact (queryResult_hit m' c).trans (h.mayHave ((queryResult_hit m c).symm.trans hm))
  | 1 => exact l0'.trans (h.has0 (l0.symm.trans hm))
  | 2 => exact l1'.trans (h.has1 (l1.symm.trans hm))
  | 3 => exact l2'.trans (h.has2 (l2.symm.trans hm))
  | 4 => exact tail'.trans (h.hasTail (tail.symm.trans hm))

end

end Sys2Proof.Machine
end

section
/-! Steps and runs without INIT and reset only grow the masks (R251). -/

namespace Sys2Proof.Machine

/-- A step that is neither INIT nor reset clears no mask bit (R251). -/
theorem step_masksGrow {s t : State} {m : Masks} (h : step s = .next t) (hf : s.filter = some m)
    (hc : ∀ e ∈ s.port.head?, ¬ ClearsFilter e) : ∃ m', t.filter = some m' ∧ MasksGrow m m' := by
  have hr : s.port.head? ≠ some .rst := fun hr => hc .rst hr (.inl rfl)
  rcases (step_writeSet h hr).filter with hkeep | ⟨hinit, -, -⟩ | ⟨w, m₀, m', -, -, -, hf', ht, hgrow, -⟩
  · exact ⟨m, hkeep.trans hf, .refl m⟩
  · exact absurd (.inr rfl) (hc _ hinit)
  · obtain rfl : m = m₀ := Option.some.inj (hf.symm.trans hf')
    exact ⟨m', ht, hgrow⟩

/-- The inputs of a run: the one its first step takes, and those of the rest of the run. -/
theorem forall_mem_take_succ_iff {p : HostEvent → Prop} {l : List HostEvent} {k : Nat} :
    (∀ e ∈ l.take (k + 1), p e) ↔ (∀ e ∈ l.head?, p e) ∧ ∀ e ∈ l.tail.take k, p e := by
  cases l <;> simp

/-- A run without INIT and reset clears no mask bit. -/
theorem run_masksGrow {k : Nat} {s u : State} {m : Masks} (h : core.run k s = .next u) (hf : s.filter = some m)
    (hc : ∀ e ∈ s.port.take k, ¬ ClearsFilter e) : ∃ m', u.filter = some m' ∧ MasksGrow m m' := by
  induction k generalizing s m with
  | zero =>
    obtain rfl := Host.Outcome.next.inj h
    exact ⟨m, hf, .refl m⟩
  | succ k ih =>
    obtain ⟨t, hstep, hrun⟩ := run_succ h
    obtain ⟨first, later⟩ := forall_mem_take_succ_iff.mp hc
    rw [← step_port hstep] at later
    obtain ⟨m₁, hf₁, hgrow₁⟩ := step_masksGrow hstep hf first
    obtain ⟨m₂, hf₂, hgrow₂⟩ := ih hrun hf₁ later
    exact ⟨m₂, hf₂, hgrow₁.trans hgrow₂⟩

/-- What the filter covers, it covers after every run without INIT and reset (R250). -/
theorem Covers.run {k : Nat} {s u : State} {c : Word} (hs : Covers s c) (h : core.run k s = .next u)
    (hc : ∀ e ∈ s.port.take k, ¬ ClearsFilter e) : Covers u c := by
  obtain ⟨m, hf, hm⟩ := hs
  obtain ⟨m', hf', hgrow⟩ := run_masksGrow h hf hc
  exact ⟨m', hf', hgrow.mayHave hm⟩

/-- A covered codepoint is answered 1 by QUERY (R210). -/
theorem Covers.query {s : State} {c : Word} (h : Covers s c) :
    ∃ t, exec .query { s with opa := c } = .next t ∧ t.result.getLsbD 0 = true := by
  obtain ⟨m, hf, hm⟩ := h
  exact ⟨_, exec_query_inited hf, (queryResult_hit m c).trans hm⟩

/-- A covered codepoint is answered 1 by VQUERY, in its lane and in `HIT` (R211). -/
theorem Covers.vquery {s : State} {j : Fin 8} (h : Covers s s.lanes[j]) :
    ∃ t, exec .vquery s = .next t ∧ t.vresult.getLsbD j.val = true ∧ t.result.getLsbD 0 = true := by
  obtain ⟨m, hf, hm⟩ := h
  obtain ⟨lane, -⟩ := batchQuery_lane m s.lanes j
  obtain ⟨hit, -⟩ := batchQuery_any m s.lanes
  exact ⟨_, exec_vquery_inited hf, lane.trans hm, hit.mpr ⟨j, hm⟩⟩

end Sys2Proof.Machine
end

section
/-! Mutations of a filter tree (R152): each is an OR of fixed bits into every leaf's mask, which include the bucket of
every codepoint it adds. -/

namespace Sys2Proof.Machine

/-- The bits a mutation sets in the mask of a leaf: they do not depend on the mask (R256). -/
def Mutation.leafBits (l : Leaf) : Mutation → BitVec l.width
  | .add c => maskFor l.width l.shift c
  | .range a b => leafAddRange l.width l.shift 0 a b
  | .array cs => leafAddArray l.width l.shift 0 cs
  | .sortedArray cs => leafAddArray l.width l.shift 0 cs

theorem leafAddRange_eq_or (w s : Nat) (m : BitVec w) (a b : Word) :
    leafAddRange w s m a b = m ||| leafAddRange w s 0 a b := by
  unfold leafAddRange
  split
  · exact BitVec.or_allOnes.symm
  · rw [BitVec.ofNat_eq_ofNat, BitVec.zero_or]

theorem leafAddArray_cons (w s : Nat) (m : BitVec w) (c : Word) (cs : List Word) :
    leafAddArray w s m (c :: cs) = leafAddArray w s (m ||| maskFor w s c) cs := rfl

theorem leafAddArray_eq_or (w s : Nat) (m : BitVec w) (cs : List Word) :
    leafAddArray w s m cs = m ||| leafAddArray w s 0 cs := by
  induction cs generalizing m with
  | nil => exact BitVec.or_zero.symm
  | cons c cs ih =>
    rw [leafAddArray_cons, leafAddArray_cons, ih, ih (0 ||| maskFor w s c), BitVec.ofNat_eq_ofNat, BitVec.zero_or,
      BitVec.or_assoc]

theorem Mutation.apply_leaf (x : Mutation) (l : Leaf) (m : BitVec l.width) :
    x.apply (.leaf l m) = .leaf l (m ||| x.leafBits l) := by
  cases x with
  | add c => rfl
  | range a b => exact congrArg (Filter.leaf l) (leafAddRange_eq_or _ _ m a b)
  | array cs | sortedArray cs => exact congrArg (Filter.leaf l) (leafAddArray_eq_or _ _ m cs)

theorem Mutation.apply_comb (x : Mutation) (f g : Filter) : x.apply (.comb f g) = .comb (x.apply f) (x.apply g) := by
  cases x <;> rfl

/-- The order of two mutations of a filter does not matter (R256). -/
theorem Mutation.apply_comm (x y : Mutation) (f : Filter) : y.apply (x.apply f) = x.apply (y.apply f) := by
  induction f with
  | leaf l m => simp only [apply_leaf, BitVec.or_assoc, BitVec.or_comm (x.leafBits l)]
  | comb f g ihf ihg => simp only [apply_comb, ihf, ihg]

/-- Repeating a mutation of a filter has no further effect (R256). -/
theorem Mutation.apply_apply (x : Mutation) (f : Filter) : x.apply (x.apply f) = x.apply f := by
  induction f with
  | leaf l m => simp only [apply_leaf, BitVec.or_assoc, BitVec.or_self]
  | comb f g ihf ihg => simp only [apply_comb, ihf, ihg]

theorem bucket_lt_width (l : Leaf) (c : Word) : (bucket l.width l.shift c).toNat < l.width := by
  rw [bucket_toNat_leaf]
  exact Nat.mod_lt _ (width_pos l)

theorem maskFor_getLsbD_bucket (l : Leaf) (c : Word) :
    (maskFor l.width l.shift c).getLsbD (bucket l.width l.shift c).toNat = true := by
  rw [(maskForSetsExactlyItsBucket l c).2, decide_eq_true rfl]

theorem leafAddArray_getLsbD_bucket (l : Leaf) {c : Word} {cs : List Word} (h : c ∈ cs) (m : BitVec l.width) :
    (leafAddArray l.width l.shift m cs).getLsbD (bucket l.width l.shift c).toNat = true := by
  induction cs generalizing m with
  | nil => cases h
  | cons d cs ih =>
    rw [leafAddArray_cons]
    rcases List.mem_cons.mp h with rfl | h
    · rw [leafAddArray_eq_or, BitVec.getLsbD_or, BitVec.getLsbD_or, maskFor_getLsbD_bucket, Bool.or_true, Bool.true_or]
    · exact ih h _

/-- The bits of a mutation include the bucket of every codepoint it adds. -/
theorem Mutation.leafBits_getLsbD_bucket {x : Mutation} {c : Word} (h : x.adds c) (l : Leaf) :
    (x.leafBits l).getLsbD (bucket l.width l.shift c).toNat = true := by
  cases x with
  | add d =>
    obtain rfl : c = d := h
    exact maskFor_getLsbD_bucket l c
  | range a b =>
    obtain ⟨hac, hcb⟩ := h
    have hab : a ≤ b := BitVec.le_trans hac hcb
    exact (leafAddRange_getLsbD_iff l 0 hab (bucket_lt_width l c)).mpr
      (.inr ⟨c, ⟨hac, hcb⟩, (bucket_toNat_leaf l c).symm⟩)
  | array cs | sortedArray cs => exact leafAddArray_getLsbD_bucket l h 0

/-- After a mutation a filter answers 1 for every codepoint the mutation added (R250). -/
theorem Mutation.mayHave_of_adds {x : Mutation} {c : Word} (h : x.adds c) (f : Filter) :
    (x.apply f).mayHave c = true := by
  induction f with
  | leaf l m =>
    rw [apply_leaf, Filter.mayHave, leafMayHave_eq_bucket, BitVec.getLsbD_or, leafBits_getLsbD_bucket h, Bool.or_true]
  | comb f g ihf ihg => rw [apply_comb, Filter.mayHave, ihf, ihg, Bool.and_self]

/-- A mutation takes no answer back (R251). -/
theorem Mutation.mayHave_apply (x : Mutation) {f : Filter} {c : Word} (h : f.mayHave c = true) :
    (x.apply f).mayHave c = true := by
  induction f with
  | leaf l m =>
    rw [apply_leaf, Filter.mayHave]
    exact (grows_or m _).leafMayHave h
  | comb f g ihf ihg =>
    rw [Filter.mayHave, Bool.and_eq_true] at h
    obtain ⟨hf, hg⟩ := h
    rw [apply_comb, Filter.mayHave, ihf hf, ihg hg, Bool.and_self]

theorem mayHave_foldl_apply {f : Filter} {c : Word} (h : f.mayHave c = true) (ms : List Mutation) :
    (ms.foldl Mutation.apply f).mayHave c = true := by
  induction ms generalizing f with
  | nil => exact h
  | cons x ms ih => exact ih (x.mayHave_apply h)

/-- After a sequence of mutations a filter answers 1 for every codepoint that one of them added (R250). -/
theorem mayHave_foldl_of_adds {x : Mutation} {ms : List Mutation} {c : Word} (hx : x ∈ ms) (hc : x.adds c)
    (f : Filter) : (ms.foldl Mutation.apply f).mayHave c = true := by
  induction ms generalizing f with
  | nil => cases hx
  | cons y ms ih =>
    rcases List.mem_cons.mp hx with rfl | hx
    · exact mayHave_foldl_apply (Mutation.mayHave_of_adds hc f) ms
    · exact ih hx _

/-- A mutation of the masks is that mutation of ROOT (R154). -/
theorem Mutation.root_onMasks (x : Mutation) (m : Masks) : (x.onMasks m).root = x.apply m.root := by
  cases x with
  | add c => exact m.root_add c
  | range a b => exact m.root_addRange a b
  | array cs | sortedArray cs => exact m.root_foldl_add cs

theorem Masks.root_injective : Function.Injective Masks.root := by
  rintro ⟨a, b, c⟩ ⟨a', b', c'⟩ h
  simpa [Masks.root] using h

/-- The order of two mutations of the masks does not matter (R256). -/
theorem Mutation.onMasks_comm (x y : Mutation) (m : Masks) : y.onMasks (x.onMasks m) = x.onMasks (y.onMasks m) :=
  Masks.root_injective (by simp only [root_onMasks, x.apply_comm y])

/-- Repeating a mutation of the masks has no further effect (R256). -/
theorem Mutation.onMasks_onMasks (x : Mutation) (m : Masks) : x.onMasks (x.onMasks m) = x.onMasks m :=
  Masks.root_injective (by simp only [root_onMasks, apply_apply])

end Sys2Proof.Machine
end

section
/-! The codepoints that a command adds, and the mutation of the masks that it is (R171, R172, R190). -/

namespace Sys2Proof.Machine

theorem arrayShape_of_addedBy {i : Instr} {s t : State} {c : Word} (h : AddedBy i s t c) :
    i = .add ∨ i = .addRange ∨ ∃ n be, arrayShape i = some (n, be) := by
  cases i with
  | init | query | vquery => exact h.elim
  | add => exact .inl rfl
  | addRange => exact .inr (.inl rfl)
  | _ => exact .inr (.inr ⟨_, _, rfl⟩)

theorem addedBy_array_iff {i : Instr} {n : Nat} {be : Bool} (hi : arrayShape i = some (n, be)) {s t : State}
    {c : Word} : AddedBy i s t c ↔ c ∈ elementsOf n be s.count.toNat (bytesRead s t) := by
  cases i with
  | init | add | addRange | query | vquery => cases hi
  | _ =>
    obtain ⟨rfl, rfl⟩ := Prod.mk.inj (Option.some.inj hi)
    rfl

/-- A completed command that added `c` is a mutation of the masks that adds `c`. -/
theorem exists_mutation_of_addedBy {i : Instr} {s t : State} {c : Word} {m : Masks} (hf : s.filter = some m)
    (h : exec i s = .next t) (hc : AddedBy i s t c) : ∃ x : Mutation, x.adds c ∧ t.filter = some (x.onMasks m) := by
  rcases arrayShape_of_addedBy hc with rfl | rfl | ⟨n, be, hi⟩
  · rw [exec_add_inited hf] at h
    obtain rfl := Host.Outcome.next.inj h
    exact ⟨.add s.opa, hc, rfl⟩
  · obtain ⟨hac, hcb⟩ := hc
    rw [exec_addRange_inited hf (BitVec.le_trans hac hcb)] at h
    obtain rfl := Host.Outcome.next.inj h
    exact ⟨.range s.opa s.opb, ⟨hac, hcb⟩, rfl⟩
  · exact ⟨.array _, (addedBy_array_iff hi).mp hc, exec_array_filter hi hf h⟩

/-- A completed command covers what it added (R250). -/
theorem covers_of_addedBy {i : Instr} {s t : State} {c : Word} (hs : s.inited = true) (h : exec i s = .next t)
    (hc : AddedBy i s t c) : Covers t c := by
  obtain ⟨m, hf⟩ := (inited_iff s).mp hs
  obtain ⟨x, hx, ht⟩ := exists_mutation_of_addedBy hf h hc
  refine ⟨_, ht, ?_⟩
  rw [← Masks.root_mayHave, Mutation.root_onMasks]
  exact Mutation.mayHave_of_adds hx m.root

end Sys2Proof.Machine
end

section
/-! Saturated leaves (R257). -/

namespace Sys2Proof.Machine

/-- A mask of all ones answers 1 for every codepoint. -/
theorem leafMayHave_of_saturated {m : Word} (h : m = BitVec.allOnes 32) (s : Nat) (c : Word) :
    leafMayHave 32 s m c = true := by
  rw [leafMayHave_eq, h, BitVec.getLsbD_allOnes, decide_eq_true (Nat.mod_lt _ (by decide))]

section
variable {m : Masks} {i : Fin 3} (h : m.get i = BitVec.allOnes 32)
include h

/-- A saturated leaf answers 1 to every QUERY. -/
theorem queryResult_leaf_of_saturated (c : Word) : (resultWord 6 0 (queryHits m c)).getLsbD (1 + i.val) = true := by
  obtain ⟨l0, l1, l2, -⟩ := queryResult_leaves m c
  match i with
  | 0 => exact l0.trans (leafMayHave_of_saturated h 4 c)
  | 1 => exact l1.trans (leafMayHave_of_saturated h 0 c)
  | 2 => exact l2.trans (leafMayHave_of_saturated h 9 c)

/-- A saturated leaf answers 1 in every lane of every VQUERY. -/
theorem batchQuery_leaf_of_saturated (cs : Vector Word 8) (j : Fin 8) :
    (batchQuery m cs).1.getLsbD (8 * (1 + i.val) + j.val) = true := by
  obtain ⟨-, l0, l1, l2⟩ := batchQuery_lane m cs j
  match i with
  | 0 => exact l0.trans (leafMayHave_of_saturated h 4 cs[j])
  | 1 => exact l1.trans (leafMayHave_of_saturated h 0 cs[j])
  | 2 => exact l2.trans (leafMayHave_of_saturated h 9 cs[j])

end

theorem queryHits_saturated (c : Word) :
    queryHits ⟨BitVec.allOnes 32, BitVec.allOnes 32, BitVec.allOnes 32⟩ c = BitVec.allOnes 5 := by
  have leaf (s : Nat) := leafMayHave_of_saturated rfl s c
  simp only [queryHits, Masks.mayHave, Masks.hasTail, Masks.has0, Masks.has1, Masks.has2, leaf]
  rfl

end Sys2Proof.Machine
end

section
/-! Refused words (R258, R267): a completed launch whose code is not 0 is the report of an error. -/

namespace Sys2Proof.Machine

theorem CommandEffect.refused {i : Instr} {s t : State} (h : CommandEffect s i t)
    (hcode : t.result.extractLsb' 8 4 ≠ 0) : ∃ e, t = report e (opcField (encode i)) s := by
  cases h with
  | uninit hf hi => exact ⟨.uninit, rfl⟩
  | range hf hlt => exact ⟨.range, rfl⟩
  | init | add hf | addRange hf hle | array hf hi hl hr ha hb | query hf | vquery hf =>
    exact absurd (resultWord_code _ 0 _) hcode

theorem launch_refused {w : Word} {s t : State} (h : launch w s = .next t) (hcode : t.result.extractLsb' 8 4 ≠ 0) :
    ∃ e, t = report e (opcField w) s := by
  rcases launch_next h with ⟨-, rfl⟩ | ⟨i, hi, he⟩
  · exact ⟨.badcmd, rfl⟩
  · rw [eq_encode_of_decode hi]
    exact (exec_next he).refused hcode

/-- A report of `E_UNINIT` changes no `ERR` bit but `UNINIT`, and its code is 2 (R31, R265). -/
theorem report_uninit_err (opc : BitVec 4) (s : State) :
    (report .uninit opc s).result.extractLsb' 8 4 = 2 ∧
      ∀ k, k ≠ 1 → (report .uninit opc s).err.getLsbD k = s.err.getLsbD k := by
  refine ⟨resultWord_code _ _ _, fun k hk => ?_⟩
  have hbit : CmdError.uninit.errBit.getLsbD k = false := by
    rw [CmdError.errBit_getLsbD, decide_eq_false_iff_not]
    exact fun h => hk (Nat.succ.inj h).symm
  rw [report_err, BitVec.getLsbD_or, hbit, Bool.or_false]

/-- The report of a query is the safe answer in `RESULT` (R267). -/
theorem report_result_hit (e : CmdError) {opc : BitVec 4} (h : opc = 6 ∨ opc = 7) (s : State) {k : Nat} (hk : k < 5) :
    (report e opc s).result.getLsbD k = true := by
  rw [report_result, resultWord_hit _ _ _ k hk, refusedHits_query opc h k hk]

/-- The report of a batch query is the safe answer in `VRESULT` (R267). -/
theorem report_vresult_lane (e : CmdError) {opc : BitVec 4} (h : opc = 7) (s : State) {k : Nat} (hk : k < 32) :
    (report e opc s).vresult.getLsbD k = true := by
  rw [report_vresult, if_pos h, BitVec.getLsbD_allOnes, decide_eq_true hk]

end Sys2Proof.Machine
end

section
/-! The queries' two outcomes: the report of `E_UNINIT`, or the answer from the masks (R98, R210, R211). -/

namespace Sys2Proof.Machine

/-- Everything a QUERY can do (R98, R210). -/
theorem exec_query_next {s t : State} (h : exec .query s = .next t) :
    (s.filter = none ∧ t = report .uninit 6 s) ∨
      ∃ m, s.filter = some m ∧ t = { s with result := resultWord 6 0 (queryHits m s.opa) } := by
  rcases whenInited_cases h with ⟨hf, ho⟩ | ⟨m, hf, ho⟩
  · exact .inl ⟨hf, Host.Outcome.next.inj ho⟩
  · exact .inr ⟨m, hf, (Host.Outcome.next.inj ho).symm⟩

/-- Everything a VQUERY can do (R98, R211). -/
theorem exec_vquery_next {s t : State} (h : exec .vquery s = .next t) :
    (s.filter = none ∧ t = report .uninit 7 s) ∨
      ∃ m, s.filter = some m ∧ t = { s with
        vresult := (batchQuery m s.lanes).1, result := resultWord 7 0 (batchQuery m s.lanes).2 } := by
  rcases whenInited_cases h with ⟨hf, ho⟩ | ⟨m, hf, ho⟩
  · exact .inl ⟨hf, Host.Outcome.next.inj ho⟩
  · exact .inr ⟨m, hf, (Host.Outcome.next.inj ho).symm⟩

end Sys2Proof.Machine
end

section
/-! A range as the list of its members (R252): what the masks gain determines them, and the list gains what the range
does. -/

namespace Sys2Proof.Machine

/-- A mask that gains exactly the buckets of given codepoints is determined. -/
theorem MaskAdds.unique {p : Word → Prop} {bk : Nat → Nat} {m a b : Word} (ha : MaskAdds p bk m a)
    (hb : MaskAdds p bk m b) : a = b :=
  BitVec.eq_of_getLsbD_eq fun k hk => Bool.eq_iff_iff.mpr ((ha k hk).trans (hb k hk).symm)

theorem MasksAdd.unique {p : Word → Prop} {m a b : Masks} (ha : MasksAdd p m a) (hb : MasksAdd p m b) : a = b := by
  obtain ⟨a0, a1, a2⟩ := ha
  obtain ⟨b0, b1, b2⟩ := hb
  cases a
  cases b
  exact (Masks.mk.injEq ..).mpr ⟨a0.unique b0, a1.unique b1, a2.unique b2⟩

/-- The codepoints `a`, `a+1`, ..., `b`, for `a ≤ b` (R252). -/
def rangeMembers (a b : Word) : List Word :=
  (List.range (b.toNat - a.toNat + 1)).map fun i => a + BitVec.ofNat 32 i

@[simp] theorem rangeMembers_length (a b : Word) : (rangeMembers a b).length = b.toNat - a.toNat + 1 := by
  simp [rangeMembers]

theorem mem_rangeMembers_iff {a b : Word} (hab : a ≤ b) (c : Word) : c ∈ rangeMembers a b ↔ a ≤ c ∧ c ≤ b := by
  have ha := a.isLt
  have hb := b.isLt
  have hc := c.isLt
  rw [BitVec.le_def] at hab
  simp only [rangeMembers, List.mem_map, List.mem_range, BitVec.toNat_eq, BitVec.toNat_add, BitVec.toNat_ofNat,
    BitVec.le_def]
  constructor
  · rintro ⟨i, hi, h⟩
    omega
  · rintro ⟨hac, hcb⟩
    exact ⟨c.toNat - a.toNat, by omega, by omega⟩

/-- ADD_RANGE's update is ADD's update of each member in turn (R252). -/
theorem Masks.foldl_add_rangeMembers (m : Masks) {a b : Word} (hab : a ≤ b) :
    (rangeMembers a b).foldl Masks.add m = m.addRange a b :=
  ((m.foldl_add_masksAdd _).congr (mem_rangeMembers_iff hab)).unique (m.addRange_masksAdd hab)

end Sys2Proof.Machine
end

section
/-! The laws of the whole machine (46_properties.md). -/

namespace Sys2Proof

open Machine

/-- Settles O35: a command covers what it added, a run without INIT and reset keeps what is covered, and both queries
answer it; for a tree, by induction on the sequence of mutations. -/
theorem soundnessOverRuns : Obligations.SoundnessOverRuns := by
  refine ⟨fun i s t u c k hs h hc hrun hclear => ?_, fun f ms c ⟨x, hx, hc⟩ => mayHave_foldl_of_adds hx hc f⟩
  have covered : Covers u c := (covers_of_addedBy hs h hc).run hrun hclear
  refine ⟨covered.query, fun j hj => ?_⟩
  subst hj
  exact covered.vquery

/-- Settles O36: the masks grow at the step, and with them the bits of a QUERY. -/
theorem stepsOnlySetMaskBits : Obligations.StepsOnlySetMaskBits := by
  intro s t m h hf hc
  obtain ⟨m', hf', hgrow⟩ := step_masksGrow h hf hc
  refine ⟨⟨m', hf', hgrow⟩, fun c v v' hv hv' k hk hbit => ?_⟩
  obtain rfl := Host.Outcome.next.inj ((exec_query_inited (s := { s with opa := c }) hf).symm.trans hv)
  obtain rfl := Host.Outcome.next.inj ((exec_query_inited (s := { t with opa := c }) hf').symm.trans hv')
  exact hgrow.queryResult hk hbit

/-- Settles O33: both outcomes of each query, the report of `E_UNINIT` and the answer from the masks. -/
theorem queriesArePure : Obligations.QueriesArePure := by
  refine fun s t => ⟨fun h => ?_, fun h => ?_⟩
  · rcases exec_query_next h with ⟨hf, rfl⟩ | ⟨m, hf, rfl⟩
    · refine ⟨rfl, fun _ => report_uninit_err _ s, fun u v hu _ hv => ?_⟩
      obtain rfl := Host.Outcome.next.inj ((exec_uninit (hu.trans hf) (by decide)).symm.trans hv)
      rfl
    · refine ⟨rfl, fun hne => absurd rfl hne, fun u v hu hopa hv => ?_⟩
      obtain rfl := Host.Outcome.next.inj ((exec_query_inited (hu.trans hf)).symm.trans hv)
      exact congrArg (fun c => resultWord 6 0 (queryHits m c)) hopa
  · rcases exec_vquery_next h with ⟨hf, rfl⟩ | ⟨m, hf, rfl⟩
    · refine ⟨rfl, fun _ => report_uninit_err _ s, fun u v hu _ hv => ?_⟩
      obtain rfl := Host.Outcome.next.inj ((exec_uninit (hu.trans hf) (by decide)).symm.trans hv)
      exact ⟨rfl, rfl⟩
    · refine ⟨rfl, fun hne => absurd rfl hne, fun u v hu hlanes hv => ?_⟩
      obtain rfl := Host.Outcome.next.inj ((exec_vquery_inited (hu.trans hf)).symm.trans hv)
      exact ⟨by rw [hlanes], by rw [hlanes]⟩

/-- Settles O39: a refused query answers all ones, a completed one the bits of the leaves and their ANDs. -/
theorem conjunctionLaw : Obligations.ConjunctionLaw := by
  refine ⟨fun f g c => Bool.and_eq_true_iff, fun s t => ⟨fun h => ?_, fun h i => ?_⟩⟩
  · rcases exec_query_next h with ⟨hf, rfl⟩ | ⟨m, hf, rfl⟩
    · have ones {k : Nat} := report_result_hit .uninit (.inl rfl) s (k := k)
      rw [ones (by decide), ones (by decide), ones (by decide), ones (by decide), ones (by decide)]
      exact ⟨rfl, rfl⟩
    · obtain ⟨l0, l1, l2, tail⟩ := queryResult_leaves m s.opa
      simp only [queryResult_hit, l0, l1, l2, tail, Masks.mayHave, Masks.hasTail, and_self]
  · rcases exec_vquery_next h with ⟨hf, rfl⟩ | ⟨m, hf, rfl⟩
    · have ones {k : Nat} := report_vresult_lane .uninit rfl s (k := k)
      rw [ones (by omega), ones (by omega), ones (by omega), ones (by omega)]
      rfl
    · obtain ⟨root, l0, l1, l2⟩ := batchQuery_lane m s.lanes i
      simp only [root, l0, l1, l2, Masks.mayHave, Masks.hasTail, Bool.and_assoc]

/-- Settles O40: a mask of all ones can only grow to itself, and has the bucket of every codepoint. -/
theorem saturationIsAbsorbing : Obligations.SaturationIsAbsorbing := by
  refine ⟨fun s m i hf hi => ⟨fun t h hc => ?_, ⟨_, exec_query_inited hf, queryResult_leaf_of_saturated hi _⟩,
    _, exec_vquery_inited hf, batchQuery_leaf_of_saturated hi _⟩, fun s hf => ⟨_, exec_query_inited hf, ?_⟩⟩
  · obtain ⟨m', hf', hgrow⟩ := step_masksGrow h hf hc
    have hgrow := hgrow.get i
    rw [hi] at hgrow
    exact ⟨m', hf', grows_allOnes_iff.mp hgrow⟩
  · exact congrArg (resultWord 6 0) (queryHits_saturated s.opa)

/-- Settles O41: on masks that hold a value each command has one rule, in the masks and its operands; mutations commute
and repeat without effect because each is an OR into every leaf. -/
theorem filtersAreTheirMasks : Obligations.FiltersAreTheirMasks := by
  refine ⟨fun s t m hs ht => ⟨fun hopa => ?_, fun hlanes => ?_, fun hopa => ?_, fun hopa hopb => ?_,
    fun i j n n' be be' s' t' hi hj hs' ht' he => ?_⟩, fun m x y => ⟨x.onMasks_comm y m, x.onMasks_onMasks m⟩⟩
  · exact ⟨_, _, exec_query_inited hs, exec_query_inited ht, by rw [hopa]⟩
  · exact ⟨_, _, exec_vquery_inited hs, exec_vquery_inited ht, by rw [hlanes], by rw [hlanes]⟩
  · exact ⟨_, _, exec_add_inited hs, exec_add_inited ht, by rw [mutated_filter, mutated_filter, hopa]⟩
  · by_cases hlt : s.opb < s.opa
    · exact ⟨_, _, exec_addRange_range hs hlt, exec_addRange_range ht (hopa ▸ hopb ▸ hlt), hs.trans ht.symm⟩
    · have hle := BitVec.not_lt.mp hlt
      exact ⟨_, _, exec_addRange_inited hs hle, exec_addRange_inited ht (hopa ▸ hopb ▸ hle),
        by rw [mutated_filter, mutated_filter, hopa, hopb]⟩
  · rw [exec_array_filter hi hs hs', exec_array_filter hj ht ht', he]

/-- Settles O46: a refused word is reported, and the report leaves the masks and gives the safe answer. -/
theorem refusalsAnswerSafely : Obligations.RefusalsAnswerSafely := by
  intro s t rest w hp h hcode
  rw [step_cmd hp] at h
  obtain ⟨e, rfl⟩ := launch_refused h hcode
  exact ⟨rfl, fun hopc k hk => report_result_hit e hopc _ hk, fun hopc k hk => report_vresult_lane e hopc _ hk⟩

/-- Settles O52: the bits of `leaf_add_range` for a leaf, and for the command the range as the list of its members. -/
theorem rangeEqualsElementwiseUnion : Obligations.RangeEqualsElementwiseUnion := by
  refine ⟨fun l m a b hab k hk => ?_, fun s rest hs hle => ?_⟩
  · have bit (c : Word) := (maskForSetsExactlyItsBucket l c).2 k
    simp only [leafAddRange_getLsbD_iff l m hab hk, bit, decide_eq_true_iff, bucket_toNat_leaf, and_assoc,
      eq_comm (a := k)]
  · intro count adds
    obtain ⟨m, hf⟩ := (inited_iff s).mp hs
    have hadds : adds = (rangeMembers s.opa s.opb).flatMap fun c => Pseudo.expand (.add c) := by
      rw [rangeMembers, List.flatMap_map]
    obtain ⟨u, run, hfilter, hport⟩ :=
      run_adds (s := { s with port := adds ++ rest }) (rest := rest) hf (by rw [hadds])
    rw [rangeMembers_length] at run
    rw [m.foldl_add_rangeMembers hle] at hfilter
    exact ⟨_, u, exec_addRange_inited hf hle, run, hfilter, hport⟩

end Sys2Proof
end

section
/-! The words a command leaves in `RESULT` and `VRESULT` (R33, R34, R155, R253): the hit bits that keep the conjunction
law, and every launch's words in their format. -/

namespace Sys2Proof.Machine

/-- Hit bits of opcode `opc` as a command can leave them: the conjunction law of R253, one way only for a batch query
(R155). -/
abbrev HitsWf (opc : BitVec 4) (hits : BitVec 5) : Prop :=
  (hits.getLsbD 4 = true → hits.getLsbD 2 = true ∧ hits.getLsbD 3 = true) ∧
    (hits.getLsbD 0 = true → hits.getLsbD 1 = true ∧ hits.getLsbD 4 = true) ∧
    (opc ≠ 7 → hits.getLsbD 4 = (hits.getLsbD 2 && hits.getLsbD 3) ∧
      hits.getLsbD 0 = (hits.getLsbD 1 && hits.getLsbD 4))

theorem resultWord_wf {opc code : BitVec 4} {hits : BitVec 5} (hc : code.toNat ≤ 3) (hh : HitsWf opc hits) :
    ResultWf (resultWord opc code hits) := by
  have bit {k : Nat} (hk : k < 5) := resultWord_hit opc code hits k hk
  refine ⟨resultWord_reserved_high _ _ _, resultWord_reserved_low _ _ _, ?_, ?_⟩
  · rw [resultWord_code]
    exact hc
  · rwa [resultWord_opc, bit (by decide), bit (by decide), bit (by decide), bit (by decide), bit (by decide)]

/-- The safe answer keeps the conjunction law (R258). -/
theorem refusedHits_wf (opc : BitVec 4) : HitsWf opc (refusedHits opc) := by
  revert opc
  decide

theorem zeroHits_wf (opc : BitVec 4) : HitsWf opc 0 := by
  revert opc
  decide

theorem queryHits_wf (m : Masks) (c : Word) : HitsWf 6 (queryHits m c) := by
  have key : ∀ l0 l1 l2 : Bool, HitsWf 6 (hitBits (l0 && (l1 && l2)) l0 l1 l2 (l1 && l2)) := by decide
  exact key (m.has0 c) (m.has1 c) (m.has2 c)

/-- A lane in which ROOT or TAIL answers 1 has its leaves answer 1 too, so their ORs over the lanes do (R155). -/
theorem batchHits_wf (m : Masks) (cs : Vector Word 8) : HitsWf 7 (batchQuery m cs).2 := by
  simp only [HitsWf, batchQuery, batchHits, hitBits_hit, hitBits_l0, hitBits_l1, hitBits_l2, hitBits_tail, anyLane_iff,
    mapLanes_get]
  refine ⟨fun ⟨i, hi⟩ => ?_, fun ⟨i, hi⟩ => ?_, fun h => absurd rfl h⟩
  · obtain ⟨h1, h2⟩ := Bool.and_eq_true_iff.mp hi
    exact ⟨⟨i, h1⟩, i, h2⟩
  · obtain ⟨h0, htail⟩ := Bool.and_eq_true_iff.mp hi
    exact ⟨⟨i, h0⟩, i, htail⟩

theorem batchQuery_vresultWf (m : Masks) (cs : Vector Word 8) : VresultWf (batchQuery m cs).1 := by
  intro i hi
  obtain ⟨root, l0, l1, l2⟩ := batchQuery_lane m cs ⟨i, hi⟩
  rw [root, l0, l1, l2, Masks.mayHave, Masks.hasTail, Bool.and_assoc]

theorem report_resultWf (e : CmdError) (opc : BitVec 4) (s : State) : ResultWf (report e opc s).result :=
  resultWord_wf e.code_le (refusedHits_wf opc)

theorem report_vresultWf (e : CmdError) (opc : BitVec 4) {s : State} (h : VresultWf s.vresult) :
    VresultWf (report e opc s).vresult := by
  by_cases h7 : opc = 7
  · intro i hi
    have ones {k : Nat} := report_vresult_lane e h7 s (k := k)
    rw [ones (by omega), ones (by omega), ones (by omega), ones (by omega)]
    rfl
  · rwa [report_vresult, if_neg h7]

theorem CommandEffect.resultWf {i : Instr} {s t : State} (h : CommandEffect s i t) : ResultWf t.result := by
  cases h with
  | uninit | range => exact report_resultWf _ _ s
  | init | add | addRange | array => exact resultWord_wf (by decide) (zeroHits_wf _)
  | query => exact resultWord_wf (by decide) (queryHits_wf _ _)
  | vquery => exact resultWord_wf (by decide) (batchHits_wf _ _)

theorem CommandEffect.vresultWf {i : Instr} {s t : State} (h : CommandEffect s i t) (hs : VresultWf s.vresult) :
    VresultWf t.vresult := by
  cases h with
  | uninit | range => exact report_vresultWf _ _ hs
  | init | add | addRange | query => exact hs
  | array hf hi hl hr ha hb =>
    obtain rfl := hr
    exact hs
  | vquery => exact batchQuery_vresultWf _ _

/-- Every word that `CMD` takes leaves the answer registers well formed (R33, R34). -/
theorem launch_answerWf {w : Word} {s t : State} (h : launch w s = .next t) (hs : VresultWf s.vresult) :
    ResultWf t.result ∧ VresultWf t.vresult := by
  rcases launch_next h with ⟨-, rfl⟩ | ⟨i, -, he⟩
  · exact ⟨report_resultWf _ _ s, report_vresultWf _ _ hs⟩
  · exact ⟨(exec_next he).resultWf, (exec_next he).vresultWf hs⟩

end Sys2Proof.Machine
end

section
/-! What is not the engine's own: the memory, the contested addresses and the records of the read port, through a
command, an act of the platform and a step (R62, R66, R72). -/

namespace Sys2Proof.Machine

theorem CommandEffect.mem_eq {i : Instr} {s t : State} (h : CommandEffect s i t) : t.mem = s.mem := by
  cases h with
  | array hf hi hl hr ha hb =>
    obtain rfl := hr
    rfl
  | _ => rfl

/-- A command adds a log of reads to the record and draws one free value for each contested byte of the log (R66). -/
theorem CommandEffect.exists_log {i : Instr} {s t : State} (h : CommandEffect s i t) :
    ∃ log, t.reads = s.reads ++ log ∧ t.draws = s.draws + contestedIn s log := by
  cases h with
  | array hf hi hl hr ha hb =>
    obtain rfl := hr
    exact ⟨_, rfl, rfl⟩
  | _ => exact ⟨[], (List.append_nil _).symm, rfl⟩

/-- Only an array command that passes the `INITED` check reads memory (R72, R98). -/
theorem CommandEffect.array_of_reads_ne {i : Instr} {s t : State} (h : CommandEffect s i t)
    (hne : t.reads ≠ s.reads) : ∃ m n be, s.filter = some m ∧ arrayShape i = some (n, be) := by
  cases h with
  | array hf hi hl hr ha hb => exact ⟨_, _, _, hf, hi⟩
  | _ => exact absurd rfl hne

theorem launch_mem {w : Word} {s t : State} (h : launch w s = .next t) : t.mem = s.mem := by
  rcases launch_next h with ⟨-, rfl⟩ | ⟨i, -, he⟩
  · rfl
  · exact (exec_next he).mem_eq

theorem launch_contested {w : Word} {s t : State} (h : launch w s = .next t) : t.contested = s.contested := by
  obtain ⟨-, ⟨-, hcontested⟩, -⟩ := launch_frame h
  exact hcontested

/-- The platform's acts write no register (R66). -/
theorem platformAct_sameEngine (act : PlatformAct) (s : State) : SameEngine s (platformAct act s) := by
  cases act <;> exact ⟨rfl, ⟨rfl, rfl, rfl, rfl, rfl, rfl, rfl⟩, rfl, rfl, rfl⟩

@[simp] theorem platformAct_reads (act : PlatformAct) (s : State) : (platformAct act s).reads = s.reads := by
  cases act <;> rfl

/-- The memory, the contested addresses and the record of reads are as before. -/
structure KeepsSurroundings (s t : State) : Prop where
  mem : t.mem = s.mem := by rfl
  contested : t.contested = s.contested := by rfl
  reads : t.reads = s.reads := by rfl

/-- Only an act of the platform and a launched command touch the surroundings of the engine (R62, R66, R72). -/
theorem step_surroundings {s t : State} (h : step s = .next t) :
    KeepsSurroundings s t ∨
    (∃ act rest, s.port = .platform act :: rest ∧ t = platformAct act { s with port := rest }) ∨
    ∃ w rest, s.port = .wr 4 w :: rest ∧ launch w { s with port := rest, answer := some .writeOk } = .next t := by
  cases hp : s.port with
  | nil =>
    rw [step_nil hp] at h
    obtain rfl := Host.Outcome.next.inj h
    exact .inl {}
  | cons e rest =>
    rw [step_cons hp] at h
    cases e with
    | rd idx =>
      obtain rfl := Host.Outcome.next.inj h
      rw [portRead_only]
      exact .inl {}
    | rst =>
      obtain rfl := Host.Outcome.next.inj h
      exact .inl {}
    | platform act => exact .inr (.inl ⟨act, rest, rfl, (Host.Outcome.next.inj h).symm⟩)
    | wr idx data =>
      cases portWrite_effect h with
      | cmd hl => exact .inr (.inr ⟨data, rest, rfl, hl⟩)
      | _ => exact .inl {}

/-- An uncontested byte is what a read of it returns (R66). -/
theorem readByte_of_lookup {a : Word} {b : Byte} {s : State} (hb : s.mem.lookup a.toNat = some b)
    (hc : a.toNat ∉ s.contested) : ∃ t, readByte a s = .ok (b, t) := by
  simp [readByte, hb, hc]

end Sys2Proof.Machine
end

section
/-! The invariant of the state, part by part through a step: the canonical forms (log entry 5), `VEC_EN` (R29), and the
answer registers (R33, R34, R253). -/

namespace Sys2Proof.Machine

theorem step_memory_wf {s t : State} (h : step s = .next t) (hm : Memory.wf s.mem) (hc : AddressesWf s.contested) :
    Memory.wf t.mem ∧ AddressesWf t.contested := by
  rcases step_surroundings h with keeps | ⟨act, rest, -, rfl⟩ | ⟨w, rest, -, hl⟩
  · rw [keeps.mem, keeps.contested]
    exact ⟨hm, hc⟩
  · exact platformAct_wf act _ hm hc
  · rw [launch_mem hl, launch_contested hl]
    exact ⟨hm, hc⟩

theorem step_vecEn {s t : State} (h : step s = .next t) (hs : Config.hasVec = false → s.vecEn = false) :
    Config.hasVec = false → t.vecEn = false := by
  intro hv
  by_cases hr : s.port.head? = some .rst
  · obtain ⟨-, ⟨-, -, -, -, -, -, hvecEn⟩, -⟩ := step_rst_sameEngine h hr
    exact hvecEn.trans hv
  · rcases (step_writeSet h hr).vecEn with hkeep | ⟨hv', -⟩
    · exact hkeep.trans (hs hv)
    · exact absurd (hv.symm.trans hv') (by decide)

theorem zero_answerWf : ResultWf 0 ∧ VresultWf 0 := by
  refine ⟨?_, fun i hi => ?_⟩
  · unfold ResultWf
    decide
  · simp

/-- Only a launch and a reset write the answer registers, and both leave them well formed (R41). -/
theorem step_answerWf {s t : State} (h : step s = .next t) (hr : ResultWf s.result) (hv : VresultWf s.vresult) :
    ResultWf t.result ∧ VresultWf t.vresult := by
  by_cases hrst : s.port.head? = some .rst
  · obtain ⟨-, -, -, hresult, hvresult⟩ := step_rst_sameEngine h hrst
    rw [hresult, hvresult]
    exact zero_answerWf
  by_cases hcmd : ∃ w, s.port.head? = some (.wr 4 w)
  · obtain ⟨w, hw⟩ := hcmd
    obtain ⟨rest, hp⟩ := List.head?_eq_some_iff.mp hw
    rw [step_cmd hp] at h
    exact launch_answerWf h hv
  · have writes := step_writeSet h hrst
    rw [writes.result.resolve_right hcmd, writes.vresult.resolve_right fun ⟨w, hw, _⟩ => hcmd ⟨w, hw⟩]
    exact ⟨hr, hv⟩

end Sys2Proof.Machine
end

section
/-! The order of a command's checks (R268): what passes all of them reports nothing. -/

namespace Sys2Proof.Machine

/-- A command that passes the checks of `INITED` and of the range completes with code 0 and leaves `ERR` (R268). -/
theorem CommandEffect.unreported {i : Instr} {s t : State} (h : CommandEffect s i t)
    (hinit : ¬ (i ≠ .init ∧ s.inited = false)) (hrange : ¬ (i = .addRange ∧ s.opb < s.opa)) :
    t.result.extractLsb' 8 4 = 0 ∧ t.err = s.err := by
  cases h with
  | uninit hf hi => exact absurd ⟨hi, (not_inited_iff s).mpr hf⟩ hinit
  | range hf hlt => exact absurd ⟨rfl, hlt⟩ hrange
  | array hf hi hl hr ha hb =>
    obtain rfl := hr
    exact ⟨resultWord_code _ _ _, rfl⟩
  | init | add | addRange | query | vquery => exact ⟨resultWord_code _ _ _, rfl⟩

end Sys2Proof.Machine
end

section
/-! The statements about the invariant, the error report, the read port, and the steps that are no register
transaction. -/

namespace Sys2Proof

open Machine

/-- Settles O37, part by part of the invariant. -/
theorem stepKeepsInvariant : Obligations.StepKeepsInvariant := by
  intro s t ⟨hmem, hcontested, hvecEn, hresult, hvresult⟩ h
  obtain ⟨hmem', hcontested'⟩ := step_memory_wf h hmem hcontested
  exact ⟨hmem', hcontested', step_vecEn h hvecEn, step_answerWf h hresult hvresult⟩

/-- Settles O38: reset memory is empty, and the answer registers are 0. -/
theorem resetHasInvariant : Obligations.ResetHasInvariant :=
  have ⟨hmem, hcontested⟩ := reset_memory_wf
  ⟨hmem, hcontested, id, zero_answerWf⟩

/-- Settles O7: each refusal is `report`, which is the report of R267, and no other effect of a command reports. -/
theorem commandErrorsReported : Obligations.CommandErrorsReported := by
  intro s rest w hp
  refine ⟨fun hw => ⟨_, (step_cmd hp).trans (launch_of_not_decode hw _), ?_⟩, fun i hi => ?_⟩
  · rw [← opcField_toNat]
    exact reported_report rfl _ _
  rw [step_cmd hp, launch_of_decode hi, ← opcField_toNat, eq_encode_of_decode hi]
  split
  · next hinit => exact refusedUninit ((not_inited_iff s).mp hinit.2) hinit.1
  · next hinit =>
    split
    · next hrange =>
      obtain ⟨rfl, hlt⟩ := hrange
      obtain ⟨m, hf⟩ := (inited_iff s).mp (by simpa using hinit)
      exact ⟨_, exec_addRange_range (m := m) hf hlt, reported_report (e := .range) rfl 3 _⟩
    · next hrange => exact fun t h => (exec_next h).unreported hinit hrange

/-- Settles O28: the reads a command adds to the record are its log, and it draws for the contested ones. -/
theorem commandsDrawOnlyContestedBytes : Obligations.CommandsDrawOnlyContestedBytes := by
  intro i s t h
  obtain ⟨log, hreads, hdraws⟩ := (exec_next h).exists_log
  rw [hreads, List.drop_left]
  exact hdraws

/-- Settles O43: only a launch adds to the record, only of an array command, and then what `exec_array_bytesRead`
says. -/
theorem onlyArrayCommandsReadMemory : Obligations.OnlyArrayCommandsReadMemory := by
  intro s t h hne
  rcases step_surroundings h with keeps | ⟨act, rest, -, rfl⟩ | ⟨w, rest, hp, hl⟩
  · exact absurd keeps.reads hne
  · exact absurd (platformAct_reads act _) hne
  · rcases launch_next hl with ⟨-, rfl⟩ | ⟨i, hi, he⟩
    · exact absurd rfl hne
    · obtain ⟨m, n, be, hf, hshape⟩ := (exec_next he).array_of_reads_ne hne
      obtain ⟨hlen, -, u, reads, final⟩ := exec_array_bytesRead hshape hf he
      rw [reads] at final
      exact ⟨w, i, n, be, by rw [hp]; rfl, hi, hshape, (inited_iff s).mpr ⟨m, hf⟩, hlen,
        congrArg State.reads final⟩

/-- Settles O8: `step_nil` is the statement. -/
theorem idleStepKeepsState : Obligations.IdleStepKeepsState := fun _ => step_nil

/-- Settles O10: the step is `State.afterReset`. -/
theorem rstYieldsResetState : Obligations.RstYieldsResetState := by
  intro s rest hp
  exact ⟨_, step_rst hp, step_rst_sameEngine (step_rst hp) (by rw [hp]; rfl)⟩

/-- Settles O13: `step_read` at `MASKi`, which then holds no value. -/
theorem uninitialisedMaskReadIsFree : Obligations.UninitialisedMaskReadIsFree := by
  intro s rest hf
  have free (i : Fin 3) (hp : s.port = .rd (Reg.index (.mask i)) :: rest) :
      step s = .next { s with
        port := rest, answer := some (.readOk (Config.uninitMask s.draws)), draws := s.draws + 1 } := by
    have hv : regValue (.mask i) s = some (Config.uninitMask s.draws) := by simp [regValue, maskWord, hf]
    have hd : regDraws (.mask i) s = 1 := by simp [regDraws, State.inited, hf]
    rw [step_read hp hv, hd]
  simp only [List.forall_mem_cons]
  exact ⟨free 0, free 1, free 2, List.forall_mem_nil _⟩

/-- Settles O48: the memory's lookup after each act, and what the read port makes of it. -/
theorem platformStoreIsReadBack : Obligations.PlatformStoreIsReadBack := by
  intro s a b rest
  refine ⟨fun hc hp => ⟨_, step_cons hp, platformAct_sameEngine (.store a b) _, ?_, fun x hx => ?_⟩,
    fun hp => ⟨_, step_cons hp, platformAct_sameEngine (.withdraw a) _, ?_, fun x hx => ?_⟩⟩
  · exact readByte_of_lookup ((lookup_store _ _ _ _).trans (if_pos rfl)) hc
  · exact (lookup_store _ _ _ _).trans (if_neg hx)
  · refine readByte_error_iff.mpr ⟨rfl, ?_⟩
    simp [Answered, platformAct, lookup_withdraw]
  · exact (lookup_withdraw _ _ _).trans (if_neg hx)

end Sys2Proof
end
